-- ==== Sys2Proof/Word.lean ====
section
/-! DEFINITION. The bit-vector widths of LFSR32. Bit 0 is the least significant bit of every value
(00_scope.md R7). -/

namespace Sys2Proof

/-- The state register, a seed, a raw value (00_scope.md R6 `LFSR_W`; 10_state.md R10). -/
abbrev Word32 := BitVec 32

/-- An operand or the data of a response (00_scope.md R6 `OP_W`). -/
abbrev Word64 := BitVec 64

/-- The opcode field (00_scope.md R6 `OPC_W`). -/
abbrev Op := BitVec 2

/-- The status field of a response (00_scope.md R6 `ST_W`). -/
abbrev StatusBits := BitVec 3

/-- The command word `op, a, b` of 130 bits (30_encoding.md R40). -/
abbrev CmdWord := BitVec 130

/-- The response word `status, data` of 67 bits (30_encoding.md R45). -/
abbrev RspWord := BitVec 67

end Sys2Proof
end

