-- ==== Sys2Proof/Syntax.lean ====
section
/-! DEFINITION. The commands, one constructor per row of spec/opcode_table.json, and the abstract lines of the
spec's assembler. -/

namespace Sys2Proof

/-- A decoded command word. Every constructor keeps both operand fields of the word, the ignored ones too
(30_encoding.md R40, R42); that an ignored field has no effect (R43) is said by the meanings, not by the
syntax (log entry 8). -/
inductive Instr where
  /-- SEED, `op = 0` (40_seed.md R61): the seed is the low half of `a`. -/
  | seed (a b : Word64)
  /-- NEXT, `op = 1` (42_next.md R81): both operands are ignored. -/
  | next (a b : Word64)
  /-- RAND, `op = 2` (43_random_int.md R91): `a` is `min`, `b` is `max`. -/
  | rand (a b : Word64)
  /-- The reserved opcode 3 (30_encoding.md R48): both operands are ignored. -/
  | reserved3 (a b : Word64)
  deriving DecidableEq, Repr

/-- A line of the assembler of 30_encoding.md R50, or a pseudo-instruction of R51, with its literals read as
numbers (log entry 10). -/
inductive AsmLine where
  /-- `SEED <a>`, an unsigned literal. -/
  | seed (a : Nat)
  /-- `NEXT`. -/
  | next
  /-- `RAND <min>, <max>`, signed literals. -/
  | rand (min max : Int)
  /-- `RESET`, the host action and no command word. -/
  | reset
  /-- `RAND` without operands (R51). -/
  | randDefault
  /-- `SPIN` (R51). -/
  | spin
  /-- `NEW <seed>` (R51). -/
  | new (seed : Nat)
  deriving DecidableEq, Repr

end Sys2Proof
end

