-- ==== Sys2Proof/WellFormed.lean ====
section
/-! DEFINITION. Which commands are legal, which words the assembler writes, which assembler lines are well formed. A term of
`Instr` needs no check to be a command: its fields have the widths of the command word, and "Every 130-bit value is a decodable
command word" (30_encoding.md R49). -/

namespace Sys2Proof

/-- The opcode is no reserved one: "This is the only illegal encoding" is said of `op = 3` (30_encoding.md R48). -/
def Instr.isLegal : Instr → Bool
  | .seed _ _ => true
  | .next _ _ => true
  | .rand _ _ => true
  | .reserved3 _ _ => false

/-- The assembler of 30_encoding.md R50 can have written the command: it is legal and its ignored fields are zero
(R43: "The assembler of rule R50 writes zeros in ignored fields"). The high half of `a` in SEED is ignored by the hardware,
yet R50 writes `enc64(<a>)` there for any literal below 2^64. -/
def Instr.isAssembled : Instr → Bool
  | .seed _ b => b == 0#64
  | .next a b => a == 0#64 && b == 0#64
  | .rand _ _ => true
  | .reserved3 _ _ => false

/-- `n` is in [-2^63, 2^63 - 1], the signed literals of 30_encoding.md R50. -/
def isSigned64 (n : Int) : Bool := decide (-2 ^ 63 ≤ n) && decide (n < 2 ^ 63)

/-- The literals of an assembler line are in the ranges of 30_encoding.md R50: unsigned below 2^64 for a seed,
signed 64-bit for the bounds. -/
def AsmLine.wf : AsmLine → Bool
  | .seed a => decide (a < 2 ^ 64)
  | .next => true
  | .rand min max => isSigned64 min && isSigned64 max
  | .reset => true
  | .randDefault => true
  | .spin => true
  | .new v => decide (v < 2 ^ 64)

end Sys2Proof
end

