-- ==== Sys2Proof/Decode.lean ====
section
/-! DEFINITION. The decoder of 130-bit command words, then the encoder, then the opcode table's rows. -/

namespace Sys2Proof

/-- `cmd[129:128]` (30_encoding.md R40). -/
def cmdOp (w : CmdWord) : Op := w.extractLsb' 128 2

/-- `cmd[127:64]` (30_encoding.md R40). -/
def cmdA (w : CmdWord) : Word64 := w.extractLsb' 64 64

/-- `cmd[63:0]` (30_encoding.md R40). -/
def cmdB (w : CmdWord) : Word64 := w.extractLsb' 0 64

/-- Decoding "tests `cmd[129:128]` and nothing else" (30_encoding.md R42) and is total (R49). -/
def decode (w : CmdWord) : Instr :=
  if cmdOp w = 0#2 then .seed (cmdA w) (cmdB w)
  else if cmdOp w = 1#2 then .next (cmdA w) (cmdB w)
  else if cmdOp w = 2#2 then .rand (cmdA w) (cmdB w)
  else .reserved3 (cmdA w) (cmdB w)

/-- Why a number is no command. -/
inductive DecodeReject where
  /-- It has a bit at position 130 or above: "The length of a command is always 130 bits" (30_encoding.md R49). -/
  | widerThanCommandWord
  deriving DecidableEq, Repr

/-- The decoder on any number of bits, bit 0 the least significant: a number of at most 130 bits is a command word, a
wider one is rejected by name. -/
def decodeBits (v : Nat) : Except DecodeReject Instr :=
  if v < 2 ^ 130 then .ok (decode (BitVec.ofNat 130 v)) else .error .widerThanCommandWord

/-- The instruction decoded from the `nbits` low bits of `w`, numbered as the opcode table numbers them (one word, bit 0
its least significant; the block has no byte order, 20_memory.md R32; log entry 4). -/
def decodeTableWord (nbits w : Nat) : Option Instr :=
  match decodeBits (w % 2 ^ nbits) with
  | .ok i => some i
  | .error _ => none

/-- The opcode of a command (30_encoding.md R42). -/
def Instr.opcode : Instr → Op
  | .seed _ _ => 0#2
  | .next _ _ => 1#2
  | .rand _ _ => 2#2
  | .reserved3 _ _ => 3#2

/-- The first operand field of a command. -/
def Instr.fieldA : Instr → Word64
  | .seed a _ => a
  | .next a _ => a
  | .rand a _ => a
  | .reserved3 a _ => a

/-- The second operand field of a command. -/
def Instr.fieldB : Instr → Word64
  | .seed _ b => b
  | .next _ b => b
  | .rand _ b => b
  | .reserved3 _ b => b

/-- `cmd = {op, a, b}` (30_encoding.md R40). -/
def cmdWord (op : Op) (a b : Word64) : CmdWord := op ++ a ++ b

/-- The command word of a command (30_encoding.md R40, R42). -/
def encode (i : Instr) : CmdWord := cmdWord i.opcode i.fieldA i.fieldB

/-- The mnemonic of a command, as spec/opcode_table.json spells it. -/
def Instr.mnemonic : Instr → String
  | .seed _ _ => "SEED"
  | .next _ _ => "NEXT"
  | .rand _ _ => "RAND"
  | .reserved3 _ _ => "RESERVED3"

/-- A row of spec/opcode_table.json: the words `w` with `w &&& mask = pattern` are the row's. -/
structure OpcodeRow where
  mnemonic : String
  pattern : CmdWord
  mask : CmdWord
  deriving DecidableEq, Repr

/-- The rows of spec/opcode_table.json, its `match` (here `pattern`) and `mask` values as they stand there. -/
def opcodeTable : List OpcodeRow :=
  [ ⟨"SEED", 0x000000000000000000000000000000000#130, 0x300000000000000000000000000000000#130⟩,
    ⟨"NEXT", 0x100000000000000000000000000000000#130, 0x300000000000000000000000000000000#130⟩,
    ⟨"RAND", 0x200000000000000000000000000000000#130, 0x300000000000000000000000000000000#130⟩,
    ⟨"RESERVED3", 0x300000000000000000000000000000000#130, 0x300000000000000000000000000000000#130⟩ ]

/-- The row holds the word. -/
def OpcodeRow.holds (r : OpcodeRow) (w : CmdWord) : Bool := w &&& r.mask == r.pattern

end Sys2Proof
end

