-- ==== Sys2Proof/Machine/State.lean ====
section
/-! DEFINITION. The state of the block beside its one host, the responses, the ways a step could stop, and reset. -/

namespace Sys2Proof.Machine

/-- The outcome of a command (60_exceptions.md R110). "A model's status type has five values"
(93_implementation_defined.md U6). -/
inductive Status where
  /-- Code 0: the command succeeded. -/
  | ok
  /-- Code 1, by SEED only: the masked seed is zero (60_exceptions.md R111). -/
  | invalidSeed
  /-- Code 2, by RAND only: `min > max` (60_exceptions.md R112). -/
  | invalidRange
  /-- Code 3, by NEXT and RAND: no engine exists (60_exceptions.md R113). -/
  | notSeeded
  /-- Code 4, by opcode 3 only (30_encoding.md R48). -/
  | illegalCmd
  deriving DecidableEq, Repr

/-- What a command answers (30_encoding.md R45). -/
structure Response where
  /-- `rsp[66:64]`, as a name. -/
  status : Status
  /-- `rsp[63:0]`. -/
  data : Word64
  deriving DecidableEq, Repr

/-- What the host does in one step (70_reset_and_hazards.md R144, the table's three rows). -/
inductive HostAction where
  /-- `rst = 1` for one edge (R130). -/
  | reset
  /-- A command word is presented and accepted (30_encoding.md R40, R41). -/
  | cmd (word : CmdWord)
  /-- Nothing is presented. -/
  | idle
  deriving DecidableEq, Repr

/-- The block and what its host will still do. -/
structure State where
  /-- `seeded` and `lfsr` together: `none` is `seeded = 0`, where `lfsr` has no value; `some x` is `seeded = 1` and
  `lfsr = x` (10_state.md R10 to R13; 00_scope.md R9). That `x` is never zero (R13) is an invariant, not part of the
  type. Log entry 1. -/
  engine : Option Word32
  /-- The response port: `none` is `rsp_valid = 0`, `some r` the response given in the step just made
  (30_encoding.md R41, R45, R46; 10_state.md R21). Log entry 11. -/
  rsp : Option Response
  /-- THE MODEL'S OWN: the actions the host has still to present, oldest first (70_reset_and_hazards.md R144). Past its
  end nothing is presented. Log entry 2. -/
  inputs : List HostAction
  deriving DecidableEq, Repr

/-- The reasons for which the machine stops. There is none: "No trap, no hang, no undefined result" (00_scope.md R9). The
four errors of 60_exceptions.md R110 are answers, after which the block is "at once ready for the next command" (R118), so
they are next states. Log entry 5. -/
inductive Fault where
  deriving DecidableEq, Repr

/-- The reasons for which an instruction has no meaning in the model. -/
inductive Refusal where
  /-- Raised by an arm of `exec` whose instruction is not modelled yet; no arm raises it. Safe: a run stops where the
  hardware goes on. -/
  | notModelled (mnemonic : String)
  deriving DecidableEq, Repr

/-- The block right after reset (10_state.md R21; 70_reset_and_hazards.md R130): no engine, no response pending. No action
is presented yet (log entry 3). -/
def State.reset : State := { engine := none, rsp := none, inputs := [] }

end Sys2Proof.Machine
end

