-- ==== Sys2Proof/Machine/Operands.lean ====
section
/-! DEFINITION. How a command's operand fields are read, and how values leave in the data field. -/

namespace Sys2Proof.Machine

/-- `u32(v)`, the low 32 bits (00_scope.md R7). -/
def u32 (v : Word64) : Word32 := v.extractLsb' 0 32

/-- `zext_64(v)` (00_scope.md R7). -/
def zext64 (v : Word32) : Word64 := v.setWidth 64

/-- `sint(v)`, the two's complement value (00_scope.md R7). -/
def sint (v : Word64) : Int := v.toInt

/-- `enc64(n)`, the vector `n mod 2^64` (00_scope.md R7). -/
def enc64 (n : Int) : Word64 := BitVec.ofInt 64 n

/-- The seed of a SEED command, masked before any test of it (40_seed.md R60; 30_encoding.md R43). -/
def seedOf (a : Word64) : Word32 := u32 a

/-- The lower bound of a RAND command (43_random_int.md R90; 30_encoding.md R43). -/
def minOf (a : Word64) : Int := sint a

/-- The upper bound of a RAND command (43_random_int.md R90; 30_encoding.md R43). -/
def maxOf (b : Word64) : Int := sint b

/-- `DEFAULT_MIN` (00_scope.md R6). -/
def defaultMin : Int := 0

/-- `DEFAULT_MAX` (00_scope.md R6). -/
def defaultMax : Int := 0xFFFFFFFF

end Sys2Proof.Machine
end

