-- ==== Sys2Proof/Machine/Flags.lean ====
section
/-! DEFINITION. The one flag, and the conditions the commands test. The block has no condition codes
(10_state.md R15). -/

namespace Sys2Proof.Machine

/-- The flag `seeded` (10_state.md R11): an engine exists. -/
def State.seeded (s : State) : Bool := s.engine.isSome

/-- The test that makes SEED fail, on the masked seed (40_seed.md R60, R61). -/
def zeroSeed (a : Word64) : Bool := seedOf a == 0#32

/-- The comparator of RAND: `sint(a) > sint(b)`, signed, on all 64 bits (43_random_int.md R95). -/
def invertedRange (a b : Word64) : Bool := decide (maxOf b < minOf a)

/-- The code of a status in a response (60_exceptions.md R110). -/
def Status.code : Status → StatusBits
  | .ok => 0#3
  | .invalidSeed => 1#3
  | .invalidRange => 2#3
  | .notSeeded => 3#3
  | .illegalCmd => 4#3

/-- `rsp = {status, data}` (30_encoding.md R45). -/
def Response.word (r : Response) : RspWord := r.status.code ++ r.data

end Sys2Proof.Machine
end

