-- ==== Sys2Proof/Machine/Lfsr.lean ====
section
/-! DEFINITION. The feedback XOR tree and the shift (41_step_function.md): pure functions of the 32-bit register value. -/

namespace Sys2Proof.Machine

/-- The highest tap (41_step_function.md R70). -/
def tap3 : Nat := 31
/-- The second tap (41_step_function.md R70). -/
def tap2 : Nat := 21
/-- The third tap (41_step_function.md R70). -/
def tap1 : Nat := 1
/-- The lowest tap, the bit that the shift discards (41_step_function.md R70). -/
def tap0 : Nat := 0

/-- The feedback bit `fb(s)` (41_step_function.md R71). -/
def fb (s : Word32) : Bool :=
  s.getLsbD tap3 ^^ s.getLsbD tap2 ^^ s.getLsbD tap1 ^^ s.getLsbD tap0

/-- `step(s) = (s >> 1) | (fb(s) << 31)` (41_step_function.md R72). -/
def lfsrStep (s : Word32) : Word32 :=
  (s >>> 1) ||| ((BitVec.ofBool (fb s)).setWidth 32 <<< 31)

/-- `unstep(n) = {n[30:0], n[31] ^ n[30] ^ n[20] ^ n[0]}`, the inverse of `step` (41_step_function.md R75). -/
def lfsrUnstep (n : Word32) : Word32 :=
  (n.extractLsb' 0 31 : BitVec 31) ++
    BitVec.ofBool (n.getLsbD 31 ^^ n.getLsbD 30 ^^ n.getLsbD 20 ^^ n.getLsbD 0)

end Sys2Proof.Machine
end

