-- ==== Sys2Proof/Machine/Ops.lean ====
section
/-! DEFINITION. The operations the commands share: answering, raising an error, loading the register, advancing it, and the
two host actions that are no command. -/

namespace Sys2Proof.Machine

/-- `respond(status, data)` ends a command: the response is given and the state stands as it was made
(00_scope.md R7; 30_encoding.md R45). -/
def respond (status : Status) (data : Word64) (s : State) : Host.Outcome State Fault Refusal :=
  .next { s with rsp := some { status := status, data := data } }

/-- `raise <Error>`, the block's only way of taking an exception: "write no state, `respond(<code of Error>, 0)`, end the
command" (00_scope.md R7; 60_exceptions.md R116). Nothing is saved and there is no return from it: "The block is at once
ready for the next command" (R118). -/
def raise (error : Status) (s : State) : Host.Outcome State Fault Refusal :=
  respond error 0#64 s

/-- `lfsr <- seed` and `seeded <- 1` (40_seed.md R61). -/
def loadSeed (seed : Word32) (s : State) : State := { s with engine := some seed }

/-- `lfsr <- step(lfsr)`, exactly one application, for a block whose register holds `x` (42_next.md R81). -/
def advance (x : Word32) (s : State) : State := { s with engine := some (lfsrStep x) }

/-- The host action `Reset`: `seeded <- 0`, `lfsr` has no value, no response (70_reset_and_hazards.md R130). -/
def resetBlock (s : State) : State := { s with engine := none, rsp := none }

/-- Nothing is presented: the block "holds state" and gives no response (70_reset_and_hazards.md R144; 60_exceptions.md
R124; 30_encoding.md R46). -/
def holdIdle (s : State) : State := { s with rsp := none }

/-- The word `w` of `nbits` bits becomes the command the host presents next, ahead of what it had still to present; a number
that is no command word (Decode.lean, `decodeBits`) is presented as nothing. -/
def presentTableWord (s : State) (nbits w : Nat) : State :=
  if w % 2 ^ nbits < 2 ^ 130 then
    { s with inputs := .cmd (BitVec.ofNat 130 (w % 2 ^ nbits)) :: s.inputs }
  else s

end Sys2Proof.Machine
end

