-- ==== Sys2Proof/Machine/Next.lean ====
section
/-! DEFINITION. The command NEXT (42_next.md). -/

namespace Sys2Proof.Machine

/-- NEXT (42_next.md R81): one step, and the NEW register value is the data. Both operands are ignored
(30_encoding.md R43). -/
def execNext (_a _b : Word64) (s : State) : Host.Outcome State Fault Refusal :=
  match s.engine with
  | none => raise .notSeeded s
  | some x => respond .ok (zext64 (lfsrStep x)) (advance x s)

end Sys2Proof.Machine
end

