-- ==== Sys2Proof/Machine/RangeMap.lean ====
section
/-! DEFINITION. The range mapper (43_random_int.md R92) and the fixed-width datapath that computes it (R94). -/

namespace Sys2Proof.Machine

/-- `range_size = max - min + 1` on integers (43_random_int.md R92). -/
def rangeSize (min max : Int) : Int := max - min + 1

/-- `map(raw, min, max) = min + (raw mod range_size)` on integers, with `raw` unsigned (43_random_int.md R92, R93). The
remainder is Lean's on integers, which for `raw ≥ 0` and `range_size ≥ 1` is the one of 00_scope.md R7. -/
def mapRange (raw : Word32) (min max : Int) : Int := min + (raw.toNat : Int) % rangeSize min max

/-- The datapath of 43_random_int.md R94. It is stated equal to `mapRange`; the machine uses `mapRange`. -/
def mapDatapath (raw : Word32) (a b : Word64) : Word64 :=
  let span : Word64 := b - a
  let off : Word32 :=
    if span.toNat ≥ 0xFFFFFFFF then raw
    else raw % (span.extractLsb' 0 32 + 1#32)
  a + off.setWidth 64

end Sys2Proof.Machine
end

