-- ==== Sys2Proof/Machine/Rand.lean ====
section
/-! DEFINITION. The command RAND (43_random_int.md). -/

namespace Sys2Proof.Machine

/-- RAND (43_random_int.md R91): the engine is tested before the bounds (60_exceptions.md R113, R117), the bounds before the
register moves (R95), and a success costs exactly one step whatever the bounds are (R96, R97). -/
def execRand (a b : Word64) (s : State) : Host.Outcome State Fault Refusal :=
  match s.engine with
  | none => raise .notSeeded s
  | some x =>
    if invertedRange a b then raise .invalidRange s
    else respond .ok (enc64 (mapRange (lfsrStep x) (minOf a) (maxOf b))) (advance x s)

end Sys2Proof.Machine
end

