-- ==== Sys2Proof/Machine/Reserved.lean ====
section
/-! DEFINITION. The reserved opcode 3 (30_encoding.md R48). -/

namespace Sys2Proof.Machine

/-- Opcode 3 (30_encoding.md R48): ILLEGAL_CMD "whatever `a`, `b` and `seeded` are", no state written. -/
def execReserved3 (_a _b : Word64) (s : State) : Host.Outcome State Fault Refusal :=
  raise .illegalCmd s

end Sys2Proof.Machine
end

