-- ==== Sys2Proof/Machine/Seed.lean ====
section
/-! DEFINITION. The command SEED (40_seed.md). -/

namespace Sys2Proof.Machine

/-- SEED (40_seed.md R61). The old engine, if any, is replaced on success and kept on failure (R62). `b` is ignored
(30_encoding.md R43). -/
def execSeed (a _b : Word64) (s : State) : Host.Outcome State Fault Refusal :=
  if zeroSeed a then raise .invalidSeed s
  else respond .ok 0#64 (loadSeed (seedOf a) s)

end Sys2Proof.Machine
end

