-- ==== Sys2Proof/Machine/Dispatch.lean ====
section
/-! DEFINITION. The dispatch of a decoded command to its meaning. -/

namespace Sys2Proof.Machine

/-- The meaning of a command, one arm per row of spec/opcode_table.json. -/
def exec (i : Instr) (s : State) : Host.Outcome State Fault Refusal :=
  match i with
  | .seed a b => Sys2Proof.Machine.execSeed a b s
  | .next a b => Sys2Proof.Machine.execNext a b s
  | .rand a b => Sys2Proof.Machine.execRand a b s
  | .reserved3 a b => Sys2Proof.Machine.execReserved3 a b s

end Sys2Proof.Machine
end

