-- ==== Sys2Proof/Machine/Perform.lean ====
section
/-! DEFINITION. One host action, performed whole; and the assembler that turns a line into a host action. -/

namespace Sys2Proof.Machine

/-- One host action is one step (70_reset_and_hazards.md R145): reset (R130), a whole command (20_memory.md R34, R36), or
nothing (R144). -/
def perform (action : HostAction) (s : State) : Host.Outcome State Fault Refusal :=
  match action with
  | .reset => .next (resetBlock s)
  | .cmd word => exec (decode word) s
  | .idle => .next (holdIdle s)

/-- The host action an assembler line stands for (30_encoding.md R50, R51): the operand-less `RAND` is `NEXT`, `SPIN` is
`RAND 0, 3`, `NEW` is `SEED`; ignored fields are zero. A line with a literal out of range is no line of the
assembler. -/
def assemble (line : AsmLine) : Option HostAction :=
  if line.wf then
    match line with
    | .seed a => some (.cmd (encode (.seed (BitVec.ofNat 64 a) 0#64)))
    | .next => some (.cmd (encode (.next 0#64 0#64)))
    | .rand min max => some (.cmd (encode (.rand (enc64 min) (enc64 max))))
    | .reset => some .reset
    | .randDefault => some (.cmd (encode (.next 0#64 0#64)))
    | .spin => some (.cmd (encode (.rand (enc64 0) (enc64 3))))
    | .new seed => some (.cmd (encode (.seed (BitVec.ofNat 64 seed) 0#64)))
  else none

end Sys2Proof.Machine
end

