-- ==== Sys2Proof/Machine/Step.lean ====
section
/-! DEFINITION. One step of the machine: the host's next action is taken and performed. -/

namespace Sys2Proof.Machine

/-- One step. Actions are performed in the order the host presents them (20_memory.md R36); after the last one nothing is
presented, and a step is then an idle step (70_reset_and_hazards.md R144; DESIGN CHOICE, log entry 2). -/
def step (s : State) : Host.Outcome State Fault Refusal :=
  match s.inputs with
  | [] => perform .idle s
  | action :: rest => perform action { s with inputs := rest }

/-- The state in which the very next step performs the command word `w` (log entry 3). -/
def State.withFetchWord (s : State) (nbits w : Nat) : State := presentTableWord s nbits w

end Sys2Proof.Machine
end

