-- ==== Sys2Proof/Config.lean ====
section
/-! DEFINITION. What an implementation fixes and the spec leaves open. Everything else of 00_scope.md R6
is a constant of the hardware and stands where it is used. -/

namespace Sys2Proof

/-- `LAT` (70_reset_and_hazards.md R145): the cycles from accepting a command to its response, "any finite
number, possibly different for each command and operand value". The first argument numbers the accepted
commands. It has no body: nothing can be proved of its value, and every statement holds for all of them.
Only the clocked layer (Machine/Handshake.lean) reads it. OPEN parameter of the spec; log entry 6. -/
opaque Config.latency : Nat → CmdWord → Nat

end Sys2Proof
end

