-- ==== Sys2Proof/Machine/Handshake.lean ====
section
/-! DEFINITION. The clocked layer: the ports and the handshake of 30_encoding.md R41 and 70_reset_and_hazards.md R133, one
clock edge a step. The atomic machine (Step.lean) does not use it: "a model does not need it" (R133). It is stated to
refine the atomic machine, whatever the latencies are (Certificates/Slice0/Obligations.lean). Log entries 6 and 7. -/

namespace Sys2Proof.Machine

/-- The input ports in one cycle (30_encoding.md R41). The clock is the step itself. -/
structure Pins where
  rst : Bool
  cmdValid : Bool
  cmdOp : Op
  cmdA : Word64
  cmdB : Word64
  deriving DecidableEq, Repr

/-- The output ports in one cycle (30_encoding.md R41). `rsp_status` and `rsp_data` mean something only while
`rsp_valid = 1` (R133(c)), so the three are one `Option`. -/
structure Outs where
  cmdReady : Bool
  rsp : Option Response
  deriving DecidableEq, Repr

/-- A command that is accepted and has not responded: its word, sampled at acceptance (R133(a)), and how many more cycles
pass before the cycle of its response. -/
structure InFlight where
  word : CmdWord
  left : Nat
  deriving DecidableEq, Repr

/-- The block at a clock edge. -/
structure Clocked where
  /-- As in `State`. -/
  engine : Option Word32
  /-- At most one command is in flight (R133(b)). -/
  inFlight : Option InFlight
  /-- THE MODEL'S OWN: how many commands were accepted, the number that `Config.latency` is asked about. -/
  accepted : Nat
  deriving DecidableEq, Repr

/-- The clocked block after its reset (R130; log entry 6 for the counter). -/
def Clocked.reset : Clocked := { engine := none, inFlight := none, accepted := 0 }

/-- The command word on the ports (30_encoding.md R41). -/
def Pins.word (p : Pins) : CmdWord := cmdWord p.cmdOp p.cmdA p.cmdB

/-- What a whole command does to an engine and what it answers: the atomic meaning, with no host beside it. -/
def runCommand (word : CmdWord) (engine : Option Word32) : Option Word32 × Option Response :=
  match exec (decode word) { engine := engine, rsp := none, inputs := [] } with
  | .next t => (t.engine, t.rsp)
  | .fault _ => (engine, none)
  | .refused _ => (engine, none)

/-- What the block does in a cycle. -/
inductive CycleKind where
  /-- `rst = 1`. -/
  | resetting
  /-- A command is in flight and does not respond in this cycle. -/
  | busy (f : InFlight) (left : Nat)
  /-- The command in flight responds in this cycle. -/
  | responding (word : CmdWord)
  /-- A command is accepted and responds in the same cycle (`LAT = 0`). -/
  | acceptResponding (word : CmdWord)
  /-- A command is accepted and responds later. -/
  | accepting (f : InFlight)
  /-- Nothing is in flight and nothing is presented. -/
  | quiet
  deriving DecidableEq, Repr

/-- What the block does in a cycle, given `lat`, the latency of a command accepted in it. A command is accepted where
`cmd_valid = 1`, `cmd_ready = 1` and `rst = 0` (30_encoding.md R41); `cmd_ready` is 0 during reset (R130) and from
acceptance until the response (R133(b)). -/
def cycleKind (lat : Nat) (p : Pins) (c : Clocked) : CycleKind :=
  if p.rst then .resetting
  else match c.inFlight with
    | some f =>
      match f.left with
      | 0 => .responding f.word
      | n + 1 => .busy f n
    | none =>
      if p.cmdValid then
        match lat with
        | 0 => .acceptResponding p.word
        | n + 1 => .accepting { word := p.word, left := n }
      else .quiet

/-- One clock cycle with the latency given: the outputs in the cycle and the block at its end. The state write of a command
takes effect with its response (R133(d); log entry 7); a reset abandons the command in flight without a response
(R132), also in the cycle in which the response is due (log entry 13). -/
def Clocked.cycleAt (lat : Nat) (p : Pins) (c : Clocked) : Outs × Clocked :=
  match cycleKind lat p c with
  | .resetting => ({ cmdReady := false, rsp := none }, { c with engine := none, inFlight := none })
  | .busy f left => ({ cmdReady := false, rsp := none }, { c with inFlight := some { f with left := left } })
  | .responding word =>
    ({ cmdReady := false, rsp := (runCommand word c.engine).2 },
      { c with engine := (runCommand word c.engine).1, inFlight := none })
  | .acceptResponding word =>
    ({ cmdReady := true, rsp := (runCommand word c.engine).2 },
      { c with engine := (runCommand word c.engine).1, accepted := c.accepted + 1 })
  | .accepting f => ({ cmdReady := true, rsp := none }, { c with inFlight := some f, accepted := c.accepted + 1 })
  | .quiet => ({ cmdReady := true, rsp := none }, c)

/-- The latency of a command that would be accepted in this cycle (R145): the free parameter. -/
def Clocked.latencyNow (p : Pins) (c : Clocked) : Nat := Config.latency c.accepted p.word

/-- One clock cycle. -/
def Clocked.cycle (p : Pins) (c : Clocked) : Outs × Clocked := c.cycleAt (c.latencyNow p) p

/-- The host action that takes effect in a cycle, if one does: the action a model "where commands are atomic" performs
(R132, R133(d)). -/
def Clocked.event (p : Pins) (c : Clocked) : Option HostAction :=
  match cycleKind (c.latencyNow p) p c with
  | .resetting => some .reset
  | .busy _ _ => none
  | .responding word => some (.cmd word)
  | .acceptResponding word => some (.cmd word)
  | .accepting _ => none
  | .quiet => none

/-- The block after the cycles of `ps`. -/
def Clocked.after : List Pins → Clocked → Clocked
  | [], c => c
  | p :: ps, c => Clocked.after ps (c.cycle p).2

/-- The outputs in the cycles of `ps`, in order. -/
def Clocked.outputs : List Pins → Clocked → List Outs
  | [], _ => []
  | p :: ps, c => (c.cycle p).1 :: Clocked.outputs ps (c.cycle p).2

/-- The responses given in the cycles of `ps`, in order. -/
def Clocked.responses (ps : List Pins) (c : Clocked) : List Response :=
  (c.outputs ps).filterMap Outs.rsp

/-- The host actions that take effect in the cycles of `ps`, in order. -/
def Clocked.events : List Pins → Clocked → List HostAction
  | [], _ => []
  | p :: ps, c => (c.event p).toList ++ Clocked.events ps (c.cycle p).2

end Sys2Proof.Machine
end

