-- ==== Sys2Proof/Safety.lean ====
section
/-! DEFINITION. The terms in which the statements speak of runs: the invariants, what a host observes, which commands move the
stream, and the order of the tests. -/

namespace Sys2Proof.Machine

/-- The invariant of 10_state.md R13: "whenever `seeded = 1`, `lfsr != 0x00000000`". -/
abbrev State.Inv (s : State) : Prop := s.engine ≠ some 0#32

/-- A response as 30_encoding.md R45 allows it: with an error status the data is 0. -/
def Response.wf (r : Response) : Bool := r.status == .ok || r.data == 0#64

/-- The response port never holds a response that 30_encoding.md R45 rules out. -/
abbrev State.RspInv (s : State) : Prop := ∀ r ∈ s.rsp, r.wf = true

/-- What the host observes of `n` steps: "the list of responses, one per command, in the order of the commands"
(70_reset_and_hazards.md R144). -/
def observe : Nat → State → List Response
  | 0, _ => []
  | n + 1, s =>
    match step s with
    | .next t => t.rsp.toList ++ observe n t
    | .fault _ => []
    | .refused _ => []

/-- The status by the order of tests of 60_exceptions.md R117, first match wins, written over the fields of the command word as
that rule writes it. -/
def priorityStatus (op : Op) (a b : Word64) (seeded : Bool) : Status :=
  if op = 3#2 then .illegalCmd
  else if op = 0#2 then (if a.extractLsb' 0 32 = 0#32 then .invalidSeed else .ok)
  else if seeded = false then .notSeeded
  else if op = 2#2 ∧ b.toInt < a.toInt then .invalidRange
  else .ok

/-- `k` is the period of the stream of `s`: the smallest positive number of steps that leads back to `s`
(41_step_function.md R78). -/
def IsPeriod (s : Word32) (k : Nat) : Prop :=
  0 < k ∧ lfsrStep^[k] s = s ∧ ∀ j, 0 < j → j < k → lfsrStep^[j] s ≠ s

end Sys2Proof.Machine

namespace Sys2Proof

/-- The command consumes a value of the stream on a seeded block: a NEXT, or a RAND that is not inverted
(42_next.md R80; 70_reset_and_hazards.md R137, R138). -/
def Instr.draws : Instr → Bool
  | .seed _ _ => false
  | .next _ _ => true
  | .rand a b => !Machine.invertedRange a b
  | .reserved3 _ _ => false

/-- The command is a SEED that succeeds (40_seed.md R61). -/
def Instr.constructs : Instr → Bool
  | .seed a _ => !Machine.zeroSeed a
  | .next _ _ => false
  | .rand _ _ => false
  | .reserved3 _ _ => false

end Sys2Proof
end

