-- ==== Sys2Proof/Certificates/Slice0/Obligations.lean ====
section
/-! DEFINITION. The statements for the provers. Each docstring names the rule it formalises; "log entry <n>" is
notes/assumptions/<n>.md. -/

open Sys2Proof Sys2Proof.Machine

/-! ### Encoding -/

/-- 30_encoding.md R40, R42, R49: decoding the word of any command, with any operand fields, gives the command back. -/
def Obligations.DecodeOfEncode : Prop := ∀ i : Instr, decode (encode i) = i

/-- 30_encoding.md R40, R42, R49: every 130-bit value is the word of the command it decodes to, so no bit of it is lost. -/
def Obligations.EncodeOfDecode : Prop := ∀ w : CmdWord, encode (decode w) = w

/-- 30_encoding.md R42: a word decodes to the command of a row of spec/opcode_table.json exactly when it matches the row's
mask and pattern. -/
def Obligations.DecoderFollowsOpcodeTable : Prop :=
  ∀ w : CmdWord, ∀ r ∈ opcodeTable, r.holds w = true ↔ (decode w).mnemonic = r.mnemonic

/-- Words written out from the layout of 30_encoding.md R40 and the opcodes of R42 decode to the commands they stand for. The
first is composed here from R40 and R42, with bits set in both operand fields of a SEED; the other five are written out in
95_test_vectors.md V5, V6 and V11, with the commands they name. -/
def Obligations.DecodeOfWrittenWords : Prop :=
  decode 0x000000001000000010000000000ABCDEF#130 = .seed 0x0000000100000001 0x0000000000ABCDEF ∧
  decode 0x0FFFFFFFF000000000000000000000000#130 = .seed 0xFFFFFFFF00000000 0 ∧
  decode 0x1FFFFFFFFFFFFFFFFFFFFFFFFFFFFFFFF#130 = .next 0xFFFFFFFFFFFFFFFF 0xFFFFFFFFFFFFFFFF ∧
  decode 0x2FFFFFFFFFFFFFFFB0000000000000005#130 = .rand (BitVec.ofInt 64 (-5)) 5 ∧
  decode 0x200000000000000008000000000000000#130 = .rand 0 (BitVec.ofInt 64 (-9223372036854775808)) ∧
  decode 0x300000000000012340000000000005678#130 = .reserved3 0x1234 0x5678

/-- 30_encoding.md R50, R51: the words the assembler writes, the expansions of the pseudo-instructions, and that a word
written for `RAND <min>, <max>` decodes to a RAND of exactly these bounds. That a line with a literal out of range gives no
word is the model's choice (log entry 10). -/
def Obligations.AssemblerWritesTheWords : Prop :=
  (∀ a : Nat, a < 2 ^ 64 →
    assemble (.seed a) = some (.cmd (cmdWord 0#2 (BitVec.ofNat 64 a) 0#64)) ∧ assemble (.new a) = assemble (.seed a)) ∧
  assemble .next = some (.cmd (cmdWord 1#2 0#64 0#64)) ∧
  assemble .randDefault = assemble .next ∧
  assemble .spin = assemble (.rand 0 3) ∧
  assemble .reset = some .reset ∧
  (∀ min max : Int, -2 ^ 63 ≤ min → min < 2 ^ 63 → -2 ^ 63 ≤ max → max < 2 ^ 63 →
    ∃ w a b, assemble (.rand min max) = some (.cmd w) ∧ w = cmdWord 2#2 a b ∧ decode w = .rand a b ∧
      a.toInt = min ∧ b.toInt = max) ∧
  (∀ line : AsmLine, line.wf = false → assemble line = none)

/-- 30_encoding.md R43: `a[63:32]` and `b` of SEED, both fields of NEXT and both fields of opcode 3 change nothing. -/
def Obligations.IgnoredFieldsHaveNoEffect : Prop :=
  ∀ (a a' b b' : Word64) (s : State),
    (a.extractLsb' 0 32 = a'.extractLsb' 0 32 → exec (.seed a b) s = exec (.seed a' b') s) ∧
    exec (.next a b) s = exec (.next a' b') s ∧
    exec (.reserved3 a b) s = exec (.reserved3 a' b') s

/-- 30_encoding.md R45, 60_exceptions.md R110: the fields of the response word, and the codes of the five statuses. -/
def Obligations.ResponseWordLayout : Prop :=
  (∀ r : Response, r.word.extractLsb' 64 3 = r.status.code ∧ r.word.extractLsb' 0 64 = r.data) ∧
  Status.ok.code = 0#3 ∧ Status.invalidSeed.code = 1#3 ∧ Status.invalidRange.code = 2#3 ∧
  Status.notSeeded.code = 3#3 ∧ Status.illegalCmd.code = 4#3

/-- 30_encoding.md R45: two responses with one response word are one response. -/
def Obligations.ResponseWordDeterminesResponse : Prop := ∀ r r' : Response, r.word = r'.word → r = r'

/-! ### The step function -/

/-- 41_step_function.md R71: `fb(s)` is the XOR of the bits 31, 21, 1 and 0, "1 exactly when an odd number of the four tap
bits are 1", and no other bit affects it. -/
def Obligations.FeedbackIsTapParity : Prop :=
  (∀ s : Word32, fb s = (s.getLsbD 31 ^^ s.getLsbD 21 ^^ s.getLsbD 1 ^^ s.getLsbD 0)) ∧
  (∀ s : Word32, fb s = true ↔ ([31, 21, 1, 0].countP fun i => s.getLsbD i) % 2 = 1) ∧
  (∀ s s' : Word32, (∀ i ∈ [31, 21, 1, 0], s.getLsbD i = s'.getLsbD i) → fb s = fb s')

/-- 41_step_function.md R72: bit 31 of `step(s)` is `fb(s)` and bit `i` is `s[i + 1]`; as a concatenation,
`{fb(s), s[31:1]}`. -/
def Obligations.StepShiftsInFeedback : Prop :=
  ∀ s : Word32,
    (lfsrStep s).getLsbD 31 = fb s ∧ (∀ i, i < 31 → (lfsrStep s).getLsbD i = s.getLsbD (i + 1)) ∧
    lfsrStep s = BitVec.ofBool (fb s) ++ (s.extractLsb' 1 31 : BitVec 31)

/-- 41_step_function.md R74, R75: zero is a fixed point; `unstep`, given bit by bit, is the inverse of `step`; hence (a) only
zero steps to zero, (b) every stream returns to its seed, (c) two streams from different seeds differ at every position. -/
def Obligations.StepIsABijection : Prop :=
  lfsrStep 0#32 = 0#32 ∧
  (∀ s : Word32, lfsrUnstep (lfsrStep s) = s ∧ lfsrStep (lfsrUnstep s) = s) ∧
  (∀ n : Word32, (lfsrUnstep n).getLsbD 0 = (n.getLsbD 31 ^^ n.getLsbD 30 ^^ n.getLsbD 20 ^^ n.getLsbD 0) ∧
    ∀ i, i < 31 → (lfsrUnstep n).getLsbD (i + 1) = n.getLsbD i) ∧
  (∀ (s : Word32) (k : Nat), s ≠ 0#32 → lfsrStep^[k] s ≠ 0#32) ∧
  (∀ s : Word32, ∃ k, 0 < k ∧ lfsrStep^[k] s = s) ∧
  (∀ (s s' : Word32) (k : Nat), s ≠ s' → lfsrStep^[k] s ≠ lfsrStep^[k] s')

/-- 41_step_function.md R76: `step` is linear over XOR; the register after `n` steps is the window `u(n+31) … u(n)` of the bits
that leave it, and these bits satisfy the recurrence of the rule. -/
def Obligations.StepIsLinearWithRecurrence : Prop :=
  (∀ x y : Word32, lfsrStep (x ^^^ y) = lfsrStep x ^^^ lfsrStep y) ∧
  ∀ (s : Word32) (u : Nat → Bool), (∀ n, u n = (lfsrStep^[n] s).getLsbD 0) →
    (∀ n i, i < 32 → (lfsrStep^[n] s).getLsbD i = u (n + i)) ∧
    ∀ n, u (n + 32) = (u (n + 31) ^^ u (n + 21) ^^ u (n + 1) ^^ u n)

/-- 41_step_function.md R78, 95_test_vectors.md V4: the seven members of the short cycle, in stream order. -/
def Obligations.ShortCycleMembers : Prop :=
  (List.range 8).map (fun k => lfsrStep^[k] 0x972E5CB9#32) =
    [0x972E5CB9#32, 0xCB972E5C#32, 0xE5CB972E#32, 0x72E5CB97#32, 0xB972E5CB#32, 0x5CB972E5#32, 0x2E5CB972#32,
      0x972E5CB9#32]

/-- 41_step_function.md R78, 90_conflicts.md C3: the period the source claims is not one, since 2^32 - 1 steps from 1 lead to
0xD05CB972. -/
def Obligations.ClaimedPeriodFails : Prop :=
  ∀ n : Nat, n + 1 = 2 ^ 32 → lfsrStep^[n] 0x00000001#32 = 0xD05CB972#32

/-- 41_step_function.md R78: the 2^32 values split into exactly four cycles of `step`, of lengths 1, 7, 2^29 - 1 and
7 * (2^29 - 1), with the members the rule's table names. -/
def Obligations.StepHasExactlyFourCycles : Prop :=
  IsPeriod 0x00000000#32 1 ∧ IsPeriod 0x972E5CB9#32 7 ∧ IsPeriod 0x20000001#32 536870911 ∧
  IsPeriod 0x00000001#32 3758096377 ∧
  ∀ s : Word32, s = 0#32 ∨ (∃ j, j < 7 ∧ s = lfsrStep^[j] 0x972E5CB9#32) ∨
    (∃ j, j < 536870911 ∧ s = lfsrStep^[j] 0x20000001#32) ∨
    (∃ j, j < 3758096377 ∧ s = lfsrStep^[j] 0x00000001#32)

/-- 70_reset_and_hazards.md R140: every seed is one of the seven of period 7, or on the cycle of 0x20000001 and of period
536870911, or none of these and of period 3758096377; and SEED accepts each of them and reports nothing. -/
def Obligations.PeriodOfEverySeed : Prop :=
  ∀ x : Word32, x ≠ 0#32 →
    ((x ∈ [0x972E5CB9#32, 0xCB972E5C#32, 0xE5CB972E#32, 0x72E5CB97#32, 0xB972E5CB#32, 0x5CB972E5#32, 0x2E5CB972#32] ∧
        IsPeriod x 7) ∨
      ((∃ j, x = lfsrStep^[j] 0x20000001#32) ∧ IsPeriod x 536870911) ∨
      (x ∉ [0x972E5CB9#32, 0xCB972E5C#32, 0xE5CB972E#32, 0x72E5CB97#32, 0xB972E5CB#32, 0x5CB972E5#32, 0x2E5CB972#32] ∧
        (¬ ∃ j, x = lfsrStep^[j] 0x20000001#32) ∧ IsPeriod x 3758096377)) ∧
    ∀ (a b : Word64) (s : State), a.extractLsb' 0 32 = x →
      exec (.seed a b) s = .next { s with engine := some x, rsp := some ⟨.ok, 0#64⟩ }

/-! ### The commands -/

/-- 40_seed.md R60, R61, R62: SEED, from every state. The whole next state is given, so this is its frame too. -/
def Obligations.SeedConstructsOrRejects : Prop :=
  ∀ (a b : Word64) (s : State),
    encode (.seed a b) = cmdWord 0#2 a b ∧
    (a.extractLsb' 0 32 ≠ 0#32 →
      exec (.seed a b) s =
        .next { s with engine := some (a.extractLsb' 0 32), rsp := some ⟨.ok, 0#64⟩ }) ∧
    (a.extractLsb' 0 32 = 0#32 →
      exec (.seed a b) s = .next { s with rsp := some ⟨.invalidSeed, 0#64⟩ })

/-- 42_next.md R81: NEXT, from every state. The whole next state is given, so this is its frame too. -/
def Obligations.NextAdvancesAndReturnsNewState : Prop :=
  ∀ (a b : Word64) (s : State),
    encode (.next a b) = cmdWord 1#2 a b ∧
    (∀ x, s.engine = some x →
      exec (.next a b) s =
        .next { s with engine := some (lfsrStep x), rsp := some ⟨.ok, (lfsrStep x).setWidth 64⟩ } ∧
      (x ≠ 0#32 → 1 ≤ (lfsrStep x).toNat ∧ (lfsrStep x).toNat ≤ 0xFFFFFFFF)) ∧
    (s.engine = none → exec (.next a b) s = .next { s with rsp := some ⟨.notSeeded, 0#64⟩ })

/-- 43_random_int.md R91, R92, R95: RAND, from every state. The whole next state is given, so this is its frame too. -/
def Obligations.RandSamplesTheRange : Prop :=
  ∀ (a b : Word64) (s : State),
    encode (.rand a b) = cmdWord 2#2 a b ∧
    (∀ x, s.engine = some x → a.toInt ≤ b.toInt →
      exec (.rand a b) s =
        .next { s with
          engine := some (lfsrStep x),
          rsp := some ⟨.ok, BitVec.ofInt 64
            (a.toInt + ((lfsrStep x).toNat : Int) % (b.toInt - a.toInt + 1))⟩ }) ∧
    (∀ x, s.engine = some x → b.toInt < a.toInt →
      exec (.rand a b) s = .next { s with rsp := some ⟨.invalidRange, 0#64⟩ }) ∧
    (s.engine = none → exec (.rand a b) s = .next { s with rsp := some ⟨.notSeeded, 0#64⟩ })

/-- 30_encoding.md R48: opcode 3, from every state. The whole next state is given, so this is its frame too. -/
def Obligations.ReservedOpcodeAnswersIllegal : Prop :=
  ∀ (a b : Word64) (s : State),
    encode (.reserved3 a b) = cmdWord 3#2 a b ∧
    exec (.reserved3 a b) s = .next { s with rsp := some ⟨.illegalCmd, 0#64⟩ }

/-- 42_next.md R82: NEXT is RAND with the default range, and RAND from 0 to any bound not below 0xFFFFFFFF, in every
state. -/
def Obligations.NextIsRandWithDefaultRange : Prop :=
  ∀ (a b : Word64) (s : State),
    exec (.next a b) s = exec (.rand 0#64 0x00000000FFFFFFFF#64) s ∧
    ∀ c : Word64, 0xFFFFFFFF ≤ c.toInt → exec (.next a b) s = exec (.rand 0#64 c) s

/-- 43_random_int.md R96: a one-value range gives its value and costs one step. -/
def Obligations.OneValueRangeStillAdvances : Prop :=
  ∀ (a : Word64) (s : State) (x : Word32), s.engine = some x →
    exec (.rand a a) s = .next { s with engine := some (lfsrStep x), rsp := some ⟨.ok, a⟩ }

/-- 43_random_int.md R93: the laws of the range mapper, for all signed 64-bit bounds `min ≤ max`. -/
def Obligations.RangeMapperLaws : Prop :=
  ∀ (raw : Word32) (min max : Int), -2 ^ 63 ≤ min → max < 2 ^ 63 → min ≤ max →
    (1 ≤ rangeSize min max ∧ rangeSize min max ≤ 2 ^ 64) ∧
    (0 ≤ (raw.toNat : Int) % rangeSize min max ∧ (raw.toNat : Int) % rangeSize min max ≤ raw.toNat ∧
      (raw.toNat : Int) % rangeSize min max ≤ rangeSize min max - 1) ∧
    mapRange raw min max = min + (raw.toNat : Int) % (max - min + 1) ∧
    (min ≤ mapRange raw min max ∧ mapRange raw min max ≤ max) ∧
    sint (enc64 (mapRange raw min max)) = mapRange raw min max ∧
    ((raw.toNat : Int) < rangeSize min max → mapRange raw min max = min + raw.toNat) ∧
    (2 ^ 32 ≤ rangeSize min max → mapRange raw min max = min + raw.toNat)

/-- 43_random_int.md R94: the fixed-width datapath computes the range mapper exactly: its `span` is `max - min`, its
divisor `m` is `range_size` and lies in [1, 0xFFFFFFFF] where it is used, and its last addition does not overflow. -/
def Obligations.DatapathComputesRangeMapper : Prop :=
  ∀ (raw : Word32) (a b : Word64), a.toInt ≤ b.toInt →
    mapDatapath raw a b = enc64 (mapRange raw (sint a) (sint b)) ∧
    ((b - a).toNat : Int) = b.toInt - a.toInt ∧
    ((b - a).toNat < 0xFFFFFFFF →
      (((b - a).extractLsb' 0 32 + 1#32 : Word32).toNat : Int) = rangeSize (sint a) (sint b) ∧
      1 ≤ ((b - a).extractLsb' 0 32 + 1#32 : Word32).toNat) ∧
    sint (mapDatapath raw a b) = mapRange raw (sint a) (sint b)

/-- 43_random_int.md R93, 95_test_vectors.md V2 "Range containment": every sample of a RAND lies between its bounds. -/
def Obligations.RandSampleLiesInRange : Prop :=
  ∀ (a b d : Word64) (s t : State), exec (.rand a b) s = .next t → t.rsp = some ⟨.ok, d⟩ →
    a.toInt ≤ d.toInt ∧ d.toInt ≤ b.toInt

/-- 43_random_int.md R99: over a range of 2^k values a sample is `min` plus the low `k` bits of the new register; `RAND 0, 3`
returns bits 2:1 of the register before the command. -/
def Obligations.PowerOfTwoRangeTakesLowBits : Prop :=
  ∀ (s : State) (x : Word32), s.engine = some x →
    (∀ (a b : Word64) (k : Nat), k ≤ 32 → b.toInt - a.toInt + 1 = 2 ^ k →
      exec (.rand a b) s = .next { s with engine := some (lfsrStep x), rsp := some ⟨.ok, BitVec.ofInt 64
        (a.toInt + ((lfsrStep x).toNat % 2 ^ k : Nat))⟩ }) ∧
    exec (.rand 0#64 3#64) s =
      .next { s with engine := some (lfsrStep x), rsp := some ⟨.ok, (x.extractLsb' 1 2).setWidth 64⟩ }

/-! ### Errors -/

/-- 60_exceptions.md R111, R112, R113, R116 and 30_encoding.md R48: each error has exactly the cause its rule names, and a
command that ends in an error writes no state and gives data 0. -/
def Obligations.ErrorsHaveTheirCausesAndNoEffect : Prop :=
  ∀ (i : Instr) (s : State), ∃ (t : State) (r : Response), exec i s = .next t ∧ t.rsp = some r ∧
    (r.status = .invalidSeed ↔ ∃ a b, i = .seed a b ∧ a.extractLsb' 0 32 = 0#32) ∧
    (r.status = .invalidRange ↔ ∃ a b, i = .rand a b ∧ s.engine ≠ none ∧ b.toInt < a.toInt) ∧
    (r.status = .notSeeded ↔ s.engine = none ∧ ∃ a b, i = .next a b ∨ i = .rand a b) ∧
    (r.status = .illegalCmd ↔ ∃ a b, i = .reserved3 a b) ∧
    (r.status ≠ .ok → t = { s with rsp := some ⟨r.status, 0#64⟩ })

/-- 60_exceptions.md R117: the status of a command word is the first that matches in the rule's order of tests. -/
def Obligations.StatusFollowsPriorityOrder : Prop :=
  ∀ (w : CmdWord) (s : State), ∃ (t : State) (r : Response), exec (decode w) s = .next t ∧ t.rsp = some r ∧
    r.status = priorityStatus (cmdOp w) (cmdA w) (cmdB w) s.engine.isSome

/-- 60_exceptions.md R118: "Any number of consecutive errors leaves the state as it was before the first", and the block is
ready at once: after any commands that all end in errors the register is as it was, and the next action is performed. -/
def Obligations.ErrorsInARowLeaveTheEngine : Prop :=
  ∀ (ws : List CmdWord) (rest : List HostAction) (s : State), s.inputs = ws.map .cmd ++ rest →
    (∀ w ∈ ws, priorityStatus (cmdOp w) (cmdA w) (cmdB w) s.engine.isSome ≠ .ok) →
    ∃ t, Host.Core.run core ws.length s = .next t ∧ t.engine = s.engine ∧ t.inputs = rest

/-! ### Who writes what -/

/-- 10_state.md R20: what each host action writes, row by row of the rule's table; and which rows do not read the register. -/
def Obligations.ReadsAndWritesOfEachAction : Prop :=
  (∀ (s : State) (rest : List HostAction), s.inputs = .reset :: rest →
    ∃ t, step s = .next t ∧ t.engine = none ∧ t.inputs = rest) ∧
  (∀ (s : State) (w : CmdWord) (rest : List HostAction), s.inputs = .cmd w :: rest →
    ∃ t, step s = .next t ∧ t.inputs = rest ∧
      (∀ a b, decode w = .seed a b → a.extractLsb' 0 32 ≠ 0#32 → t.engine = some (a.extractLsb' 0 32)) ∧
      (∀ a b, decode w = .seed a b → a.extractLsb' 0 32 = 0#32 → t.engine = s.engine) ∧
      (∀ a b x, decode w = .next a b → s.engine = some x → t.engine = some (lfsrStep x)) ∧
      (∀ a b, decode w = .next a b → s.engine = none → t.engine = none) ∧
      (∀ a b x, decode w = .rand a b → s.engine = some x → a.toInt ≤ b.toInt → t.engine = some (lfsrStep x)) ∧
      (∀ a b, decode w = .rand a b → b.toInt < a.toInt → t.engine = s.engine) ∧
      (∀ a b, decode w = .rand a b → s.engine = none → t.engine = none) ∧
      (∀ a b, decode w = .reserved3 a b → t.engine = s.engine)) ∧
  (∀ (a b : Word64) (s s' t t' : State),
    (exec (.seed a b) s = .next t → exec (.seed a b) s' = .next t' → t.rsp = t'.rsp) ∧
    (exec (.reserved3 a b) s = .next t → exec (.reserved3 a b) s' = .next t' → t.rsp = t'.rsp) ∧
    (b.toInt < a.toInt → s.engine.isSome = s'.engine.isSome →
      exec (.rand a b) s = .next t → exec (.rand a b) s' = .next t' → t.rsp = t'.rsp))

/-- 10_state.md R11, 30_encoding.md R54: a step sets `seeded` only by performing a successful SEED and clears it only by
performing a reset, so no command word destroys an engine. -/
def Obligations.SeededSetBySeedClearedByReset : Prop :=
  ∀ s t : State, step s = .next t →
    (∀ x, s.engine = none → t.engine = some x →
      ∃ w rest a b, s.inputs = .cmd w :: rest ∧ decode w = .seed a b ∧ x = a.extractLsb' 0 32 ∧ x ≠ 0#32) ∧
    (s.engine ≠ none → t.engine = none → ∃ rest, s.inputs = .reset :: rest)

/-- 10_state.md R10: the register takes a new value only by a successful SEED, which writes the seed, or by a NEXT or a RAND
that is not inverted, which write one step of the old value; a reset takes the value away. -/
def Obligations.LfsrWrittenOnlyByItsWriters : Prop :=
  ∀ s t : State, step s = .next t → t.engine ≠ s.engine →
    (∃ rest, s.inputs = .reset :: rest ∧ t.engine = none) ∨
    (∃ w rest, s.inputs = .cmd w :: rest ∧ (decode w).constructs = true ∧
      t.engine = some ((cmdA w).extractLsb' 0 32)) ∨
    (∃ w rest x, s.inputs = .cmd w :: rest ∧ (decode w).draws = true ∧ s.engine = some x ∧
      t.engine = some (lfsrStep x))

/-- The frame of every command, from 10_state.md R20: no command changes what the host has still to present; a command that
is no successful SEED, no NEXT and no RAND with `min ≤ max` leaves the engine; each leaves `seeded` set once it is set. -/
def Obligations.CommandFrame : Prop :=
  ∀ (i : Instr) (s t : State), exec i s = .next t →
    t.inputs = s.inputs ∧ (i.draws = false → i.constructs = false → t.engine = s.engine) ∧
    (s.engine.isSome = true → t.engine.isSome = true) ∧
    (s.engine = none → i.constructs = false → t.engine = none)

/-! ### Invariants -/

/-- 10_state.md R21: after reset no engine exists and no response is pending. -/
def Obligations.ResetStateIsUnseeded : Prop :=
  State.reset.seeded = false ∧ State.reset.engine = none ∧ State.reset.rsp = none

/-- 10_state.md R13: the state after reset has the invariant. -/
def Obligations.ResetHasNonZeroInvariant : Prop := State.reset.Inv

/-- 10_state.md R13: every step, from every state that has the invariant, keeps it. -/
def Obligations.StepKeepsNonZeroInvariant : Prop := ∀ s t : State, s.Inv → step s = .next t → t.Inv

/-- 10_state.md R13, for every host: whatever actions follow a reset, in every state reached the register of an existing engine
is not zero. -/
def Obligations.RegisterNeverZeroUnderAnyHost : Prop :=
  ∀ (actions : List HostAction) (n : Nat) (t : State),
    Host.Core.run core n { State.reset with inputs := actions } = .next t →
      t.engine ≠ some 0#32

/-- 30_encoding.md R45: a response with an error status has data 0, in every state a step leads to from one where it holds. -/
def Obligations.StepKeepsResponseInvariant : Prop := ∀ s t : State, s.RspInv → step s = .next t → t.RspInv

/-! ### Steps, reset and the host -/

/-- 30_encoding.md R42, 70_reset_and_hazards.md R144: when the host presents a command word, the step is the meaning of the
decoded command, on the state whose host has one action less to present; and a step of a state made by `withFetchWord` runs
the command the table decoder reads. This last clause is the model's choice: that a program is presented from outside and that
`withFetchWord` stands for it is log entry 3 (DESIGN CHOICE), and how the table numbers the bits of a word, with a wider
number refused, is log entry 4 (DEDUCED and DESIGN CHOICE). -/
def Obligations.StepRunsTheDecodedCommand : Prop :=
  (∀ (s : State) (w : CmdWord) (rest : List HostAction), s.inputs = .cmd w :: rest →
    step s = exec (decode w) { s with inputs := rest }) ∧
  ∀ (s : State) (nbits w : Nat), w % 2 ^ nbits < 2 ^ 130 →
    ∃ i, decodeTableWord nbits w = some i ∧ step (s.withFetchWord nbits w) = exec i s

/-- 70_reset_and_hazards.md R130: reset clears `seeded`, takes the value of the register away, gives no response; two resets
are one; the next NEXT or RAND answers NOT_SEEDED; and at the ports no command is accepted while `rst = 1`. The last clause,
about the clocked layer, says more than R130, and that much is the model's: no response in any cycle with `rst = 1` is log
entry 13 (DEDUCED, unsafe), and that a reset keeps the counter of accepted commands is log entry 6 (DESIGN CHOICE). -/
def Obligations.ResetLeavesAnUnseededBlock : Prop :=
  (∀ (s : State) (rest : List HostAction), s.inputs = .reset :: rest →
    step s = .next { engine := none, rsp := none, inputs := rest }) ∧
  (∀ (s : State) (rest : List HostAction), s.inputs = .reset :: .reset :: rest →
    Host.Core.run core 2 s = step { s with inputs := .reset :: rest }) ∧
  (∀ (s : State) (w : CmdWord) (rest : List HostAction), s.inputs = .reset :: .cmd w :: rest →
    (decode w).mnemonic = "NEXT" ∨ (decode w).mnemonic = "RAND" →
    Host.Core.run core 2 s = .next { engine := none, rsp := some ⟨.notSeeded, 0#64⟩, inputs := rest }) ∧
  (∀ (c : Clocked) (p : Pins), p.rst = true →
    c.cycle p = (⟨false, none⟩, { c with engine := none, inFlight := none }))

/-- 60_exceptions.md R124, 70_reset_and_hazards.md R144: in a step whose host action is idle the block holds its state and
gives no response. That a step past the end of the host's actions is such a step too is the model's choice (log entry 2,
DESIGN CHOICE): R144 has a run end there. -/
def Obligations.IdleHoldsTheState : Prop :=
  ∀ (s : State), (s.inputs = [] → step s = .next { s with rsp := none }) ∧
    ∀ rest, s.inputs = .idle :: rest → step s = .next { s with rsp := none, inputs := rest }

/-- 00_scope.md R9 "No trap, no hang, no undefined result": every step of every state has a next state. -/
def Obligations.EveryStepGoesOn : Prop := ∀ s : State, ∃ t, step s = .next t

/-- 30_encoding.md R45, R46: a step gives a response exactly when it performs a command, so the host observes exactly one
response per command. -/
def Obligations.OneResponsePerCommand : Prop :=
  (∀ s t : State, step s = .next t → (t.rsp.isSome = true ↔ ∃ w rest, s.inputs = .cmd w :: rest)) ∧
  ∀ (n : Nat) (s : State),
    (observe n s).length = (s.inputs.take n).countP (fun action => action matches .cmd _)

/-- 70_reset_and_hazards.md R134, 60_exceptions.md R113: without an engine, and until a SEED succeeds, no command is answered
with OK and no engine comes to exist. -/
def Obligations.UnseededUntilSeedSucceeds : Prop :=
  ∀ (n : Nat) (s : State), s.engine = none →
    (∀ w, .cmd w ∈ s.inputs → (decode w).constructs = false) →
    (∀ r ∈ observe n s, r.status ≠ .ok) ∧ ∃ t, Host.Core.run core n s = .next t ∧ t.engine = none

/-! ### Runs -/

/-- 20_memory.md R36, 43_random_int.md R98, 10_state.md R15: what a host observes from a state on depends on the engine and on the
host's actions only, not on any earlier response. -/
def Obligations.ObservationsDependOnEngineAndInputs : Prop :=
  ∀ (n : Nat) (s s' : State), s.engine = s'.engine → s.inputs = s'.inputs → observe n s = observe n s'

/-- 40_seed.md R63, 60_exceptions.md R122: the state after a successful SEED is its masked operand and depends on nothing else,
and everything a host observes from it on depends on the seed and the later actions only: two blocks, whatever they held, seeded alike and commanded alike, respond alike for ever. -/
def Obligations.SeedForgetsThePast : Prop :=
  ∀ (w w' : CmdWord) (rest : List HostAction) (s s' : State),
    s.inputs = .cmd w :: rest → s'.inputs = .cmd w' :: rest →
    cmdOp w = 0#2 → cmdOp w' = 0#2 → (cmdA w).extractLsb' 0 32 = (cmdA w').extractLsb' 0 32 →
    (cmdA w).extractLsb' 0 32 ≠ 0#32 →
    step s = .next { engine := some ((cmdA w).extractLsb' 0 32), rsp := some ⟨.ok, 0#64⟩, inputs := rest } ∧
    step s' = step s ∧ ∀ n, observe n s = observe n s'

/-- 70_reset_and_hazards.md R136, 42_next.md R80: after `SEED s` the responses to NEXT after NEXT are `step(s)`,
`step(step(s))`, and so on, never `s` first. -/
def Obligations.SeedThenNextGivesTheStream : Prop :=
  ∀ (k : Nat) (a b : Word64) (ws : List CmdWord) (rest : List HostAction) (s : State),
    a.extractLsb' 0 32 ≠ 0#32 → ws.length = k → (∀ w ∈ ws, cmdOp w = 1#2) →
    s.inputs = .cmd (encode (.seed a b)) :: (ws.map .cmd ++ rest) →
    observe (k + 1) s = ⟨.ok, 0#64⟩ ::
      (List.range k).map fun j => ⟨.ok, (lfsrStep^[j + 1] (a.extractLsb' 0 32)).setWidth 64⟩

/-- 42_next.md R83, 70_reset_and_hazards.md R137, R138, R139: over any sequence of commands without a successful SEED the register
of a seeded block moves by exactly one step for each NEXT and each RAND with `min ≤ max`, and by none for any other command:
there is one stream, a successful sample costs one value whatever its bounds, and an error costs none. -/
def Obligations.StreamPositionCountsSuccessfulSamples : Prop :=
  ∀ (ws : List CmdWord) (rest : List HostAction) (s : State) (x : Word32),
    s.engine = some x → s.inputs = ws.map .cmd ++ rest →
    (∀ w ∈ ws, (decode w).constructs = false) →
    ∃ t, Host.Core.run core ws.length s = .next t ∧ t.inputs = rest ∧
      t.engine = some (lfsrStep^[ws.countP fun w => (decode w).draws] x)

/-! ### The handshake -/

/-- 70_reset_and_hazards.md R133(b), (c), (e): while a command is in flight, and in its response cycle, the block is not ready;
with nothing in flight and no reset it is ready; after a cycle that gives a response nothing is in flight, so it is ready
in the next. Two of these are log entry 7, not the rule's words: that the block is ready whenever nothing is in flight and
`rst = 0` is DEDUCED from R133(b) and (e), and that it is not ready again already in a later response's own cycle is the
model's choice (DESIGN CHOICE, unsafe). -/
def Obligations.HandshakeReadiness : Prop :=
  ∀ (p : Pins) (c : Clocked),
    (c.inFlight ≠ none → (c.cycle p).1.cmdReady = false) ∧
    (c.inFlight = none → p.rst = false → (c.cycle p).1.cmdReady = true) ∧
    ((c.cycle p).1.rsp ≠ none → (c.cycle p).2.inFlight = none ∧
      ∀ q : Pins, q.rst = false → ((c.cycle p).2.cycle q).1.cmdReady = true)

/-- 70_reset_and_hazards.md R133(c), R145: a command accepted in a cycle responds exactly `LAT` cycles later, while `rst` stays
0 and whatever the other pins do: over these cycles there is one response, in the last of them, it is the one of the atomic
meaning, and the engine is then as that meaning leaves it. So every accepted command is answered after finitely many
cycles. That a command presented with nothing in flight and `rst = 0` is accepted is DEDUCED (log entry 7). -/
def Obligations.ResponseAfterLatency : Prop :=
  ∀ (p : Pins) (ps : List Pins) (c : Clocked), c.inFlight = none → p.rst = false → p.cmdValid = true →
    (∀ q ∈ ps, q.rst = false) → ps.length = Config.latency c.accepted p.word →
    ∃ (t : State) (r : Response),
      exec (decode p.word) { engine := c.engine, rsp := none, inputs := [] } = .next t ∧ t.rsp = some r ∧
      c.responses (p :: ps) = [r] ∧ ((c.outputs (p :: ps)).getLast?.bind Outs.rsp) = some r ∧
      (c.after (p :: ps)).engine = t.engine

/-- 70_reset_and_hazards.md R132, 30_encoding.md R46: a reset abandons the command in flight: it gives no response, and the
block is as a reset leaves one with nothing in flight. That this holds also in the very cycle in which the response is due is
the model's reading (log entry 13, DEDUCED, unsafe). -/
def Obligations.ResetAbandonsCommandInFlight : Prop :=
  ∀ (p : Pins) (c : Clocked) (f : InFlight), p.rst = true → c.inFlight = some f →
    (c.cycle p).1.rsp = none ∧ c.event p = some .reset ∧
    c.cycle p = Clocked.cycle p { c with inFlight := none }

/-- 70_reset_and_hazards.md R132, R133, 20_memory.md R36: the clocked block refines the atomic one. Whatever the pins do and
whatever the latencies are, there is a sequence of host actions (the resets, and the commands that responded, in order) on
which the atomic machine gives the same responses in the same order and ends with the same engine. A command due in a cycle
with `rst = 1` is not among them (log entry 13, DEDUCED, unsafe). That the engines are equal also where the pins end with a
command in flight is the model's choice: the command writes with its response (log entry 7, DESIGN CHOICE), where R133(d)
allows an earlier write too. -/
def Obligations.ClockedBlockRefinesAtomicBlock : Prop :=
  ∀ (ps : List Pins) (c : Clocked),
    c.responses ps = observe (c.events ps).length { engine := c.engine, rsp := none, inputs := c.events ps } ∧
    ∃ t, Host.Core.run core (c.events ps).length { engine := c.engine, rsp := none, inputs := c.events ps } = .next t ∧
      t.engine = (c.after ps).engine
end

