-- ==== Sys2Proof/Laws/Decode.lean ====
section
/-! SUPPORT. The fields of a command word, and which constructor the decoder answers for each opcode. -/

namespace Sys2Proof

/-- The bits of a command word (30_encoding.md R40): `b` below bit 64, then `a`, then the opcode. -/
theorem cmdWord_getLsbD (op : Op) (a b : Word64) (i : Nat) :
    (cmdWord op a b).getLsbD i =
      if i < 64 then b.getLsbD i else if i - 64 < 64 then a.getLsbD (i - 64) else op.getLsbD (i - 64 - 64) := by
  refine (BitVec.getLsbD_append (x := op ++ a) (y := b) (i := i)).trans ?_
  by_cases h : i < 64
  · simp [h]
  · simp only [h, if_false]
    exact BitVec.getLsbD_append

@[simp] theorem cmdOp_cmdWord (op : Op) (a b : Word64) : cmdOp (cmdWord op a b) = op := by
  apply BitVec.eq_of_getLsbD_eq
  intro i hi
  have h1 : ¬ 128 + i < 64 := by omega
  have h2 : ¬ 128 + i - 64 < 64 := by omega
  have h3 : 128 + i - 64 - 64 = i := by omega
  simp only [cmdOp, BitVec.getLsbD_extractLsb', cmdWord_getLsbD, hi, h1, h2, h3, decide_true, Bool.true_and, if_false]

@[simp] theorem cmdA_cmdWord (op : Op) (a b : Word64) : cmdA (cmdWord op a b) = a := by
  apply BitVec.eq_of_getLsbD_eq
  intro i hi
  have h1 : ¬ 64 + i < 64 := by omega
  have h2 : 64 + i - 64 = i := by omega
  simp only [cmdA, BitVec.getLsbD_extractLsb', cmdWord_getLsbD, hi, h1, h2, decide_true, Bool.true_and, if_false, if_true]

@[simp] theorem cmdB_cmdWord (op : Op) (a b : Word64) : cmdB (cmdWord op a b) = b := by
  apply BitVec.eq_of_getLsbD_eq
  intro i hi
  simp only [cmdB, BitVec.getLsbD_extractLsb', cmdWord_getLsbD, hi, Nat.zero_add, decide_true, Bool.true_and, if_true]

/-- A command word is its three fields. -/
theorem cmdWord_fields (w : CmdWord) : cmdWord (cmdOp w) (cmdA w) (cmdB w) = w := by
  apply BitVec.eq_of_getLsbD_eq
  intro i hi
  rw [cmdWord_getLsbD]
  by_cases h1 : i < 64
  · simp [cmdB, h1]
  · by_cases h2 : i - 64 < 64
    · have h3 : 64 + (i - 64) = i := by omega
      simp [cmdA, h1, h2, h3]
    · have h3 : i - 64 - 64 < 2 := by omega
      have h4 : 128 + (i - 64 - 64) = i := by omega
      simp [cmdOp, h1, h2, h3, h4]

/-- All an opcode can be. -/
theorem op_cases (op : Op) : op = 0#2 ∨ op = 1#2 ∨ op = 2#2 ∨ op = 3#2 := by
  revert op; decide

theorem decode_op0 {w : CmdWord} (h : cmdOp w = 0#2) : decode w = .seed (cmdA w) (cmdB w) := by
  simp [decode, h]

theorem decode_op1 {w : CmdWord} (h : cmdOp w = 1#2) : decode w = .next (cmdA w) (cmdB w) := by
  simp [decode, h]

theorem decode_op2 {w : CmdWord} (h : cmdOp w = 2#2) : decode w = .rand (cmdA w) (cmdB w) := by
  simp [decode, h]

theorem decode_op3 {w : CmdWord} (h : cmdOp w = 3#2) : decode w = .reserved3 (cmdA w) (cmdB w) := by
  simp [decode, h]

/-- All the decoder can answer: one constructor per opcode, with both fields of the word. -/
theorem decode_cases (w : CmdWord) :
    (cmdOp w = 0#2 ∧ decode w = .seed (cmdA w) (cmdB w)) ∨ (cmdOp w = 1#2 ∧ decode w = .next (cmdA w) (cmdB w)) ∨
    (cmdOp w = 2#2 ∧ decode w = .rand (cmdA w) (cmdB w)) ∨
    (cmdOp w = 3#2 ∧ decode w = .reserved3 (cmdA w) (cmdB w)) := by
  rcases op_cases (cmdOp w) with h | h | h | h
  · exact .inl ⟨h, decode_op0 h⟩
  · exact .inr (.inl ⟨h, decode_op1 h⟩)
  · exact .inr (.inr (.inl ⟨h, decode_op2 h⟩))
  · exact .inr (.inr (.inr ⟨h, decode_op3 h⟩))

/-- A number that fits the command word decodes as that word. -/
theorem decodeTableWord_of_lt {nbits w : Nat} (h : w % 2 ^ nbits < 2 ^ 130) :
    decodeTableWord nbits w = some (decode (BitVec.ofNat 130 (w % 2 ^ nbits))) := by
  rw [decodeTableWord, decodeBits, if_pos h]

/-- A number that does not fit the command word is rejected. -/
theorem decodeTableWord_of_ge {nbits w : Nat} (h : 2 ^ 130 ≤ w % 2 ^ nbits) : decodeTableWord nbits w = none := by
  rw [decodeTableWord, decodeBits, if_neg (by omega)]

end Sys2Proof
end

