-- ==== Sys2Proof/Laws/State.lean ====
section
/-! SUPPORT. One lemma per field of State per update the machine makes, and for each shared operation what it does. -/

namespace Sys2Proof.Machine

variable (s : State) (x : Word32) (st : Status) (d : Word64)

@[simp] theorem loadSeed_engine : (loadSeed x s).engine = some x := rfl
@[simp] theorem loadSeed_rsp : (loadSeed x s).rsp = s.rsp := rfl
@[simp] theorem loadSeed_inputs : (loadSeed x s).inputs = s.inputs := rfl

@[simp] theorem advance_engine : (advance x s).engine = some (lfsrStep x) := rfl
@[simp] theorem advance_rsp : (advance x s).rsp = s.rsp := rfl
@[simp] theorem advance_inputs : (advance x s).inputs = s.inputs := rfl

@[simp] theorem resetBlock_engine : (resetBlock s).engine = none := rfl
@[simp] theorem resetBlock_rsp : (resetBlock s).rsp = none := rfl
@[simp] theorem resetBlock_inputs : (resetBlock s).inputs = s.inputs := rfl

@[simp] theorem holdIdle_engine : (holdIdle s).engine = s.engine := rfl
@[simp] theorem holdIdle_rsp : (holdIdle s).rsp = none := rfl
@[simp] theorem holdIdle_inputs : (holdIdle s).inputs = s.inputs := rfl

@[simp] theorem reset_engine : State.reset.engine = none := rfl
@[simp] theorem reset_rsp : State.reset.rsp = none := rfl
@[simp] theorem reset_inputs : State.reset.inputs = [] := rfl

/-- An answer changes the response port only. -/
theorem respond_eq : respond st d s = .next { s with rsp := some ⟨st, d⟩ } := rfl

/-- An error changes the response port only, and its data is 0. -/
theorem raise_eq : raise st s = .next { s with rsp := some ⟨st, 0#64⟩ } := rfl

/-- All that an answer can do. -/
theorem respond_cases {s t : State} {st : Status} {d : Word64} (h : respond st d s = .next t) :
    t.engine = s.engine ∧ t.inputs = s.inputs ∧ t.rsp = some ⟨st, d⟩ := by
  cases h; exact ⟨rfl, rfl, rfl⟩

/-- All that an error can do. -/
theorem raise_cases {s t : State} {st : Status} (h : raise st s = .next t) :
    t.engine = s.engine ∧ t.inputs = s.inputs ∧ t.rsp = some ⟨st, 0#64⟩ :=
  respond_cases h

/-- The bits of a response word (30_encoding.md R45): the data below bit 64, then the status. -/
theorem response_word_getLsbD (r : Response) (i : Nat) :
    r.word.getLsbD i = if i < 64 then r.data.getLsbD i else r.status.code.getLsbD (i - 64) := by
  refine (BitVec.getLsbD_append (x := r.status.code) (y := r.data) (i := i)).trans ?_
  by_cases h : i < 64 <;> simp [h]

/-- A status is known by its code. -/
theorem status_code_injective : ∀ a b : Status, a.code = b.code → a = b := by
  intro a b
  cases a <;> cases b <;> decide

end Sys2Proof.Machine
end

