-- ==== Sys2Proof/Laws/Exec.lean ====
section
/-! SUPPORT. For each command, all it can do: the inversion lemmas that a proof about a next state cites. -/

namespace Sys2Proof.Machine

variable {a b : Word64} {s t : State}

/-- All that SEED can do (40_seed.md R61). -/
theorem exec_seed_cases (h : exec (.seed a b) s = .next t) :
    (zeroSeed a = true ∧ t = { s with rsp := some ⟨.invalidSeed, 0#64⟩ }) ∨
    (zeroSeed a = false ∧ t = { s with engine := some (seedOf a), rsp := some ⟨.ok, 0#64⟩ }) := by
  simp only [exec, execSeed] at h
  split at h
  · next hz => cases h; exact .inl ⟨hz, rfl⟩
  · next hz => cases h; exact .inr ⟨by simpa using hz, rfl⟩

/-- All that NEXT can do (42_next.md R81). -/
theorem exec_next_cases (h : exec (.next a b) s = .next t) :
    (s.engine = none ∧ t = { s with rsp := some ⟨.notSeeded, 0#64⟩ }) ∨
    (∃ x, s.engine = some x ∧
      t = { s with engine := some (lfsrStep x), rsp := some ⟨.ok, zext64 (lfsrStep x)⟩ }) := by
  simp only [exec, execNext] at h
  split at h
  · next he => cases h; exact .inl ⟨he, rfl⟩
  · next x he => cases h; exact .inr ⟨x, he, rfl⟩

/-- All that RAND can do (43_random_int.md R91). -/
theorem exec_rand_cases (h : exec (.rand a b) s = .next t) :
    (s.engine = none ∧ t = { s with rsp := some ⟨.notSeeded, 0#64⟩ }) ∨
    (s.engine ≠ none ∧ invertedRange a b = true ∧ t = { s with rsp := some ⟨.invalidRange, 0#64⟩ }) ∨
    (∃ x, s.engine = some x ∧ invertedRange a b = false ∧
      t = { s with
        engine := some (lfsrStep x),
        rsp := some ⟨.ok, enc64 (mapRange (lfsrStep x) (minOf a) (maxOf b))⟩ }) := by
  simp only [exec, execRand] at h
  split at h
  · next he => cases h; exact .inl ⟨he, rfl⟩
  · next x he =>
    split at h
    · next hi => cases h; exact .inr (.inl ⟨by simp [he], hi, rfl⟩)
    · next hi => cases h; exact .inr (.inr ⟨x, he, by simpa using hi, rfl⟩)

/-- All that opcode 3 can do (30_encoding.md R48). -/
theorem exec_reserved3_cases (h : exec (.reserved3 a b) s = .next t) :
    t = { s with rsp := some ⟨.illegalCmd, 0#64⟩ } := by
  cases h; rfl

/-- SEED with a non-zero low half loads it. -/
theorem exec_seed_of_ne (b : Word64) (s : State) (h : zeroSeed a = false) :
    exec (.seed a b) s = respond .ok 0#64 (loadSeed (seedOf a) s) := by
  simp [exec, execSeed, h]

/-- SEED with a zero low half is an error. -/
theorem exec_seed_of_zero (b : Word64) (s : State) (h : zeroSeed a = true) :
    exec (.seed a b) s = raise .invalidSeed s := by
  simp [exec, execSeed, h]

/-- NEXT on an engine advances it. -/
theorem exec_next_of_some (a b : Word64) {x : Word32} (h : s.engine = some x) :
    exec (.next a b) s = respond .ok (zext64 (lfsrStep x)) (advance x s) := by
  simp [exec, execNext, h]

/-- NEXT without an engine is an error. -/
theorem exec_next_of_none (a b : Word64) (h : s.engine = none) : exec (.next a b) s = raise .notSeeded s := by
  simp [exec, execNext, h]

/-- RAND on an engine with bounds in order samples. -/
theorem exec_rand_of_some {x : Word32} (h : s.engine = some x) (hr : invertedRange a b = false) :
    exec (.rand a b) s =
      respond .ok (enc64 (mapRange (lfsrStep x) (minOf a) (maxOf b))) (advance x s) := by
  simp [exec, execRand, h, hr]

/-- RAND on an engine with inverted bounds is an error. -/
theorem exec_rand_of_inverted {x : Word32} (h : s.engine = some x) (hr : invertedRange a b = true) :
    exec (.rand a b) s = raise .invalidRange s := by
  simp [exec, execRand, h, hr]

/-- RAND without an engine is an error. -/
theorem exec_rand_of_none (a b : Word64) (h : s.engine = none) : exec (.rand a b) s = raise .notSeeded s := by
  simp [exec, execRand, h]

/-- The comparator says that the bounds are inverted (43_random_int.md R95). -/
theorem invertedRange_eq_true : invertedRange a b = true ↔ b.toInt < a.toInt :=
  decide_eq_true_iff

/-- The comparator says that the bounds are in order. -/
theorem invertedRange_eq_false : invertedRange a b = false ↔ a.toInt ≤ b.toInt := by
  rw [← Bool.not_eq_true, invertedRange_eq_true, Int.not_lt]

/-- The test for a zero seed looks at the low half (40_seed.md R60). -/
theorem zeroSeed_eq_true : zeroSeed a = true ↔ a.extractLsb' 0 32 = 0#32 := by
  simp [zeroSeed, seedOf, u32]

/-- The test for a zero seed looks at the low half (40_seed.md R60). -/
theorem zeroSeed_eq_false : zeroSeed a = false ↔ a.extractLsb' 0 32 ≠ 0#32 := by
  simp [zeroSeed, seedOf, u32]

/-- Every command has a next state, which holds a response (30_encoding.md R45). -/
theorem exec_next (i : Instr) (s : State) : ∃ t r, exec i s = .next t ∧ t.rsp = some r := by
  cases i with
  | seed a b =>
    simp only [exec, execSeed]
    split <;> exact ⟨_, _, rfl, rfl⟩
  | next a b =>
    simp only [exec, execNext]
    split <;> exact ⟨_, _, rfl, rfl⟩
  | rand a b =>
    simp only [exec, execRand]
    split
    · exact ⟨_, _, rfl, rfl⟩
    · split <;> exact ⟨_, _, rfl, rfl⟩
  | reserved3 a b => exact ⟨_, _, rfl, rfl⟩

end Sys2Proof.Machine
end

