-- ==== Sys2Proof/Laws/Handshake.lean ====
section
/-! SUPPORT. What one clock cycle does in each of the cases of the handshake. -/

namespace Sys2Proof.Machine

variable {c : Clocked} {p : Pins} {f : InFlight} {n : Nat}

/-- A command in the clocked layer is the atomic command. -/
theorem runCommand_eq {w : CmdWord} {e : Option Word32} {t : State}
    (h : exec (decode w) { engine := e, rsp := none, inputs := [] } = .next t) :
    runCommand w e = (t.engine, t.rsp) := by
  simp only [runCommand, h]

theorem cycle_reset (h : p.rst = true) :
    c.cycle p = (⟨false, none⟩, { c with engine := none, inFlight := none }) := by
  simp [Clocked.cycle, Clocked.cycleAt, cycleKind, h]

theorem cycle_busy (h : p.rst = false) (hf : c.inFlight = some f) (hl : f.left = n + 1) :
    c.cycle p = (⟨false, none⟩, { c with inFlight := some { f with left := n } }) := by
  simp [Clocked.cycle, Clocked.cycleAt, cycleKind, h, hf, hl]

theorem cycle_responding (h : p.rst = false) (hf : c.inFlight = some f) (hl : f.left = 0) :
    c.cycle p = (⟨false, (runCommand f.word c.engine).2⟩,
      { c with engine := (runCommand f.word c.engine).1, inFlight := none }) := by
  simp [Clocked.cycle, Clocked.cycleAt, cycleKind, h, hf, hl]

theorem cycle_quiet (h : p.rst = false) (hf : c.inFlight = none) (hv : p.cmdValid = false) :
    c.cycle p = (⟨true, none⟩, c) := by
  simp [Clocked.cycle, Clocked.cycleAt, cycleKind, h, hf, hv]

theorem cycle_acceptResponding (h : p.rst = false) (hf : c.inFlight = none) (hv : p.cmdValid = true)
    (hl : c.latencyNow p = 0) :
    c.cycle p = (⟨true, (runCommand p.word c.engine).2⟩,
      { c with engine := (runCommand p.word c.engine).1, accepted := c.accepted + 1 }) := by
  simp [Clocked.cycle, Clocked.cycleAt, cycleKind, h, hf, hv, hl]

theorem cycle_accepting (h : p.rst = false) (hf : c.inFlight = none) (hv : p.cmdValid = true)
    (hl : c.latencyNow p = n + 1) :
    c.cycle p = (⟨true, none⟩, { c with inFlight := some ⟨p.word, n⟩, accepted := c.accepted + 1 }) := by
  simp [Clocked.cycle, Clocked.cycleAt, cycleKind, h, hf, hv, hl]

end Sys2Proof.Machine
end

