-- ==== Sys2Proof/Laws/Lfsr.lean ====
section
/-! SUPPORT. The bits of `step` and `unstep`. -/

namespace Sys2Proof.Machine

/-- Bit `i` of `step(s)` (41_step_function.md R72). -/
theorem lfsrStep_getLsbD (s : Word32) (i : Nat) :
    (lfsrStep s).getLsbD i = if i = 31 then fb s else s.getLsbD (i + 1) := by
  rcases Nat.lt_trichotomy i 31 with h | h | h
  · have h1 : i ≠ 31 := by omega
    have h2 : 1 + i = i + 1 := by omega
    simp [lfsrStep, h, h1, h2]
  · subst h; simp [lfsrStep]
  · have h1 : i ≠ 31 := by omega
    have h2 : ¬ i < 32 := by omega
    rw [BitVec.getLsbD_of_ge _ _ (by omega), if_neg h1, BitVec.getLsbD_of_ge _ _ (by omega)]

/-- Bit `i` of `unstep(n)` (41_step_function.md R75). -/
theorem lfsrUnstep_getLsbD (n : Word32) (i : Nat) (hi : i < 32) :
    (lfsrUnstep n).getLsbD i =
      if i = 0 then (n.getLsbD 31 ^^ n.getLsbD 30 ^^ n.getLsbD 20 ^^ n.getLsbD 0) else n.getLsbD (i - 1) := by
  refine (BitVec.getLsbD_append (x := (n.extractLsb' 0 31 : BitVec 31))
    (y := BitVec.ofBool (n.getLsbD 31 ^^ n.getLsbD 30 ^^ n.getLsbD 20 ^^ n.getLsbD 0)) (i := i)).trans ?_
  by_cases h : i = 0
  · simp [h]
  · have h1 : ¬ i < 1 := by omega
    have h2 : i - 1 < 31 := by omega
    simp [h, h1, h2]

end Sys2Proof.Machine
end

