-- ==== Sys2Proof/Laws/PerInstr.lean ====
section
/-! SUPPORT. Facts about every command as syntax, one lemma per constructor. -/

namespace Sys2Proof.Laws.EncodeFields

/-- The word of a command holds its opcode and both its operand fields, each where 30_encoding.md R40 puts it. -/
def Statement (i : Instr) : Prop :=
  cmdOp (encode i) = i.opcode ∧ cmdA (encode i) = i.fieldA ∧ cmdB (encode i) = i.fieldB

theorem seed (a b : Word64) : Statement (.seed a b) := by simp [Statement, encode]

theorem next (a b : Word64) : Statement (.next a b) := by simp [Statement, encode]

theorem rand (a b : Word64) : Statement (.rand a b) := by simp [Statement, encode]

theorem reserved3 (a b : Word64) : Statement (.reserved3 a b) := by simp [Statement, encode]

end Sys2Proof.Laws.EncodeFields
end

