-- ==== Sys2Proof/Laws/Step.lean ====
section
/-! SUPPORT. What one step does for each host action, and the induction over a run packaged once. -/

namespace Sys2Proof.Machine

variable {s t : State} {rest : List HostAction} {w : CmdWord}

theorem step_nil (h : s.inputs = []) : step s = .next (holdIdle s) := by simp only [step, h]; rfl

theorem step_idle (h : s.inputs = .idle :: rest) : step s = .next (holdIdle { s with inputs := rest }) := by
  simp only [step, h]; rfl

theorem step_reset (h : s.inputs = .reset :: rest) : step s = .next (resetBlock { s with inputs := rest }) := by
  simp only [step, h]; rfl

theorem step_cmd (h : s.inputs = .cmd w :: rest) : step s = exec (decode w) { s with inputs := rest } := by
  simp only [step, h]; rfl

/-- All that a step can do: nothing is presented, a reset, or a whole command. -/
theorem step_cases (h : step s = .next t) :
    (s.inputs = [] ∧ t = holdIdle s) ∨
    (∃ rest, s.inputs = .idle :: rest ∧ t = holdIdle { s with inputs := rest }) ∨
    (∃ rest, s.inputs = .reset :: rest ∧ t = resetBlock { s with inputs := rest }) ∨
    (∃ w rest, s.inputs = .cmd w :: rest ∧ exec (decode w) { s with inputs := rest } = .next t) := by
  match hi : s.inputs with
  | [] => rw [step_nil hi] at h; cases h; exact .inl ⟨rfl, rfl⟩
  | .idle :: rest => rw [step_idle hi] at h; cases h; exact .inr (.inl ⟨rest, rfl, rfl⟩)
  | .reset :: rest => rw [step_reset hi] at h; cases h; exact .inr (.inr (.inl ⟨rest, rfl, rfl⟩))
  | .cmd w :: rest => rw [step_cmd hi] at h; exact .inr (.inr (.inr ⟨w, rest, rfl, h⟩))

/-- A step takes the host's next action, whatever it is. -/
theorem step_inputs (h : step s = .next t) : t.inputs = s.inputs.tail := by
  rcases step_cases h with ⟨hi, rfl⟩ | ⟨rest, hi, rfl⟩ | ⟨rest, hi, rfl⟩ | ⟨w, rest, hi, hx⟩
  · simp [hi]
  · simp [hi]
  · simp [hi]
  · rcases decode_cases w with ⟨-, e⟩ | ⟨-, e⟩ | ⟨-, e⟩ | ⟨-, e⟩ <;> rw [e] at hx
    · rcases exec_seed_cases hx with ⟨-, rfl⟩ | ⟨-, rfl⟩ <;> simp [hi]
    · rcases exec_next_cases hx with ⟨-, rfl⟩ | ⟨_, -, rfl⟩ <;> simp [hi]
    · rcases exec_rand_cases hx with ⟨-, rfl⟩ | ⟨-, -, rfl⟩ | ⟨_, -, -, rfl⟩ <;> simp [hi]
    · have := exec_reserved3_cases hx
      simp [this, hi]

theorem run_zero (s : State) : Host.Core.run core 0 s = .next s := rfl

theorem run_succ {n : Nat} (h : step s = .next t) : Host.Core.run core (n + 1) s = Host.Core.run core n t := by
  have h' : core.step s = .next t := h
  simp only [Host.Core.run, h']

theorem observe_succ {n : Nat} (h : step s = .next t) : observe (n + 1) s = t.rsp.toList ++ observe n t := by
  simp only [observe, h]

/-- A property that every step keeps holds in every state a run leads to. -/
theorem run_keeps {P : State → Prop} (hP : ∀ s t, P s → step s = .next t → P t) :
    ∀ (n : Nat) (s t : State), P s → Host.Core.run core n s = .next t → P t := by
  intro n
  induction n with
  | zero => intro s t hs h; cases h; exact hs
  | succ n ih =>
    intro s t hs h
    match hst : step s with
    | .next u => rw [run_succ hst] at h; exact ih u t (hP s u hs hst) h
    | .fault r => cases r
    | .refused r =>
      have h' : core.step s = .refused r := hst
      simp [Host.Core.run, h'] at h

end Sys2Proof.Machine
end

