-- ==== Sys2Proof/Tests/Slice0.lean ====
section
/-! SUPPORT. The model's own tests. Expected values are those of 95_test_vectors.md (V<n>, P<n>) or of the rule named; then, for
each obligation with hypotheses, a witness that meets them. -/

namespace Sys2Proof.Tests

open Sys2Proof.Machine

/-- A block whose register holds `x`. -/
def block (x : Word32) : State := { engine := some x, rsp := none, inputs := [] }

/-- A block without an engine. -/
def unseeded : State := { engine := none, rsp := none, inputs := [] }

/-- The block `s` with the host actions still to present. -/
def withInputs (s : State) (actions : List HostAction) : State := { s with inputs := actions }

/-- The outcome is a next state with this engine and this response. -/
def answers (o : Host.Outcome State Fault Refusal) (engine : Option Word32) (st : Status) (data : Word64) : Bool :=
  match o with
  | .next t => decide (t.engine = engine ∧ t.rsp = some ⟨st, data⟩)
  | .fault _ => false
  | .refused _ => false

/-! ### Well-formedness: each check refuses an ill-formed term -/

theorem test_wf_refuses_wide_seed : AsmLine.wf (.seed (2 ^ 64)) = false := by decide
theorem test_wf_refuses_wide_new : AsmLine.wf (.new (2 ^ 64)) = false := by decide
theorem test_wf_refuses_min_below : AsmLine.wf (.rand (-2 ^ 63 - 1) 0) = false := by decide
theorem test_wf_refuses_min_above : AsmLine.wf (.rand (2 ^ 63) 0) = false := by decide
theorem test_wf_refuses_max_above : AsmLine.wf (.rand 0 (2 ^ 63)) = false := by decide
theorem test_wf_refuses_max_below : AsmLine.wf (.rand 0 (-2 ^ 63 - 1)) = false := by decide
theorem test_wf_accepts_extremes : AsmLine.wf (.rand (-2 ^ 63) (2 ^ 63 - 1)) = true := by decide
theorem test_illegal_opcode : Instr.isLegal (.reserved3 0 0) = false := by decide
theorem test_assembled_refuses_seed_b : Instr.isAssembled (.seed 1 0xABCDEF) = false := by decide
theorem test_assembled_refuses_next_a : Instr.isAssembled (.next 1 0) = false := by decide
theorem test_assembled_refuses_next_b : Instr.isAssembled (.next 0 1) = false := by decide
theorem test_assembled_refuses_reserved : Instr.isAssembled (.reserved3 0 0) = false := by decide
theorem test_decode_refuses_wide : decodeBits (2 ^ 130) = .error .widerThanCommandWord := by rfl

/-! ### Decoding: words written out from 30_encoding.md R40, R42 (RAND and opcode 3: the words of V6 and V11) -/

theorem test_decode_seed : decode 0x000000001000000010000000000ABCDEF#130 = .seed 0x100000001 0xABCDEF := by decide
theorem test_decode_next : decode 0x10000000000000000FFFFFFFFFFFFFFFF#130 = .next 0 0xFFFFFFFFFFFFFFFF := by decide
theorem test_decode_rand : decode 0x2FFFFFFFFFFFFFF9CFFFFFFFFFFFFFFA6#130 =
    .rand (BitVec.ofInt 64 (-100)) (BitVec.ofInt 64 (-90)) := by decide
theorem test_decode_reserved3 : decode 0x300000000000012340000000000005678#130 = .reserved3 0x1234 0x5678 := by decide

/-- R40: each end bit of each field in its place: op 129:128, a 127:64, b 63:0. -/
theorem test_decode_field_ends :
    decode (BitVec.ofNat 130 (2 ^ 129 + 2 ^ 127 + 2 ^ 64 + 2 ^ 63 + 1)) =
      .rand 0x8000000000000001 0x8000000000000001 := by decide

theorem test_table_word : decodeTableWord 136 (2 ^ 129 + 3) = some (.rand 0 3) := by decide
theorem test_table_word_short : decodeTableWord 64 5 = some (.seed 0 5) := by decide
theorem test_table_word_wide : decodeTableWord 136 (2 ^ 130) = none := by decide

/-- V11: the first step after reset runs the word that is presented. -/
theorem test_first_word_after_reset :
    answers (step (State.reset.withFetchWord 136 0)) none .invalidSeed 0 = true ∧
    answers (step (State.reset.withFetchWord 136 (2 ^ 64))) (some 1) .ok 0 = true ∧
    answers (step (State.reset.withFetchWord 136 (2 ^ 128))) none .notSeeded 0 = true ∧
    answers (step (State.reset.withFetchWord 136 (2 ^ 129 + 3))) none .notSeeded 0 = true ∧
    answers (step (State.reset.withFetchWord 136 (3 * 2 ^ 128))) none .illegalCmd 0 = true := by decide

/-! ### The assembler (R50, R51) -/

theorem test_assemble_rand : assemble (.rand (-5) 5) = some (.cmd 0x2FFFFFFFFFFFFFFFB0000000000000005#130) := by decide
theorem test_assemble_spin : assemble .spin = some (.cmd 0x200000000000000000000000000000003#130) := by decide
theorem test_assemble_new : assemble (.new 0x100000001) = some (.cmd 0x000000001000000010000000000000000#130) := by decide

/-! ### The step function (V3, V4) -/

theorem test_step_vectors :
    ([(0x00000001, 0x80000000), (0xFFFFFFFF, 0x7FFFFFFF), (0x80000000, 0xC0000000), (0x00200000, 0x80100000),
      (0x00000002, 0x80000001), (0x00000003, 0x00000001), (0x7FDFFFFC, 0x3FEFFFFE), (0xDEADBEEF, 0x6F56DF77),
      (0x12345678, 0x891A2B3C), (0xCAFEBABE, 0xE57F5D5F)] : List (Word32 × Word32)).all
      (fun v => lfsrStep v.1 == v.2 && lfsrUnstep v.2 == v.1) = true := by decide

theorem test_fb_single_taps :
    [0x80000000, 0x00200000, 0x00000002, 0x00000001].map (fun n => fb (BitVec.ofNat 32 n)) = [true, true, true, true] ∧
    fb 0x80200003 = false ∧ fb 0x7FDFFFFC = false := by decide

theorem test_stream_of_one_at_40 : lfsrStep^[40] 0x00000001#32 = 0x44199557#32 := by decide

/-! ### The range mapper (V6) -/

theorem test_map_vectors :
    mapRange 0xFFFFFFFF (-5) 5 = -2 ∧ mapRange 0x80000000 1 6 = 3 ∧ mapRange 0xFFFFFFFF 0 4294967294 = 0 ∧
    mapRange 0xFFFFFFFF 0 4294967295 = 4294967295 ∧
    mapRange 0xFFFFFFFF (-9223372036854775808) 9223372036854775807 = -9223372032559808513 := by decide

theorem test_datapath_vectors :
    mapDatapath 0xFFFFFFFF (BitVec.ofInt 64 (-5)) 5 = 0xFFFFFFFFFFFFFFFE ∧
    mapDatapath 0x00000001 0x8000000000000000 0x7FFFFFFFFFFFFFFF = 0x8000000000000001 := by decide

/-! ### The commands -/

/-- V5: the high half is masked off, on a block that holds an engine. -/
theorem test_seed_masks : answers (exec (.seed 0xFFFFFFFF00000001 0) (block 0xC0000000)) (some 1) .ok 0 = true := by decide

/-- V5, P4 line 5: masking comes before the zero test; the old engine stays. -/
theorem test_seed_zero_low_half :
    answers (exec (.seed 0x100000000 0) (block 0xC0000000)) (some 0xC0000000) .invalidSeed 0 = true := by decide

/-- V1: the golden value. -/
theorem test_next_golden : answers (exec (.next 0 0) (block 1)) (some 0x80000000) .ok 0x80000000 = true := by decide

/-- P4 line 1. -/
theorem test_next_unseeded : answers (exec (.next 7 9) unseeded) none .notSeeded 0 = true := by decide

/-- V6: negative bounds, and `raw` unsigned. -/
theorem test_rand_negative : answers (exec (.rand 0xFFFFFFFFFFFFFF9C 0xFFFFFFFFFFFFFFA6) (block 0x12345678))
    (some 0x891A2B3C) .ok 0xFFFFFFFFFFFFFFA4 = true := by decide

/-- V6, P5 line 16: the comparison is signed. -/
theorem test_rand_inverted : answers (exec (.rand 0 0xFFFFFFFFFFFFFFFF) (block 0xCAFEBABE))
    (some 0xCAFEBABE) .invalidRange 0 = true := by decide

/-- V11: unseeded wins over inverted. -/
theorem test_rand_unseeded_inverted : answers (exec (.rand 3 0) unseeded) none .notSeeded 0 = true := by decide

/-- V11. -/
theorem test_reserved3 : answers (exec (.reserved3 0x1234 0x5678) (block 1)) (some 1) .illegalCmd 0 = true := by decide

/-- R45: the response word of `(INVALID_RANGE, 0)` and of `(OK, 0x80000000)`. -/
theorem test_response_words :
    (Response.word ⟨.invalidRange, 0⟩).toNat = 2 * 2 ^ 64 ∧ (Response.word ⟨.ok, 0x80000000⟩).toNat = 0x80000000 := by decide

/-! ### Host actions -/

theorem test_reset_clears :
    step (withInputs (block 5) [.reset, .idle]) = .next (withInputs unseeded [.idle]) := by rfl

theorem test_idle_holds :
    step { engine := some 5, rsp := some ⟨.ok, 9⟩, inputs := [.idle] } = .next (block 5) := by rfl

/-- P3 lines 1 to 4: an error costs nothing, a one-value range costs one value. -/
theorem test_observe_retry :
    observe 4 (withInputs unseeded (([.seed 1, .rand 10 5, .rand 0 0xFFFFFFFF, .rand 50 50] : List AsmLine).filterMap assemble)) =
      [⟨.ok, 0⟩, ⟨.invalidRange, 0⟩, ⟨.ok, 0x80000000⟩, ⟨.ok, 50⟩] := by decide

/-! ### The clocked layer -/

/-- Pins that present `NEXT`. -/
def nextPins : Pins := { rst := false, cmdValid := true, cmdOp := 1, cmdA := 0, cmdB := 0 }

/-- Pins that present nothing. -/
def quietPins : Pins := { rst := false, cmdValid := false, cmdOp := 0, cmdA := 0, cmdB := 0 }

/-- A clocked block with an engine and nothing in flight. -/
def clocked : Clocked := { engine := some 1, inFlight := none, accepted := 0 }

/-- R133(c): `LAT = 0` responds in the cycle of acceptance. -/
theorem test_cycle_latency_zero :
    clocked.cycleAt 0 nextPins =
      (⟨true, some ⟨.ok, 0x80000000⟩⟩, { engine := some 0x80000000, inFlight := none, accepted := 1 }) := by decide

/-- R133(b), (c): `LAT = 1` accepts, is not ready, and responds in the next cycle. -/
theorem test_cycle_latency_one :
    ((clocked.cycleAt 1 nextPins).2.cycleAt 0 nextPins) =
      (⟨false, some ⟨.ok, 0x80000000⟩⟩, { engine := some 0x80000000, inFlight := none, accepted := 1 }) := by decide

/-- R132: reset abandons the command in flight. -/
theorem test_cycle_reset_abandons :
    ((clocked.cycleAt 3 nextPins).2.cycleAt 0 { quietPins with rst := true }) =
      (⟨false, none⟩, { engine := none, inFlight := none, accepted := 1 }) := by decide

/-! ### Witnesses: states and operands that meet the hypotheses of the obligations -/

/-- A SEED word with a non-zero high half and `b`, and the same seed without them. -/
def seedOneWide : CmdWord := 0x0DEADBEEF000000010000000000ABCDEF#130
/-- The word of `SEED 1`. -/
def seedOne : CmdWord := 0x000000000000000010000000000000000#130
/-- The word of `SEED 0`. -/
def seedZero : CmdWord := 0#130
/-- The word of `NEXT`. -/
def nextWord : CmdWord := 0x100000000000000000000000000000000#130
/-- The word of `RAND 10, 5`. -/
def randInverted : CmdWord := 0x2000000000000000A0000000000000005#130
/-- The word of `RAND 50, 50`. -/
def randFifty : CmdWord := 0x200000000000000320000000000000032#130
/-- A word of opcode 3. -/
def reservedWord : CmdWord := 0x3FFFFFFFFFFFFFFFFFFFFFFFFFFFFFFFF#130

theorem witness_DecoderFollowsOpcodeTable :
    (⟨"RESERVED3", 0x3 <<< 128, 0x3 <<< 128⟩ : OpcodeRow) ∈ opcodeTable ∧
    (opcodeTable.map fun r => r.holds reservedWord) = [false, false, false, true] := by decide

theorem witness_AssemblerWritesTheWords :
    2 ^ 64 - 1 < 2 ^ 64 ∧ AsmLine.wf (.rand (2 ^ 63) 0) = false ∧
    ((-2 : Int) ^ 63 ≤ -9223372036854775808 ∧ (-9223372036854775808 : Int) < 2 ^ 63 ∧
      (-2 : Int) ^ 63 ≤ 9223372036854775807 ∧ (9223372036854775807 : Int) < 2 ^ 63) := by decide

theorem witness_IgnoredFieldsHaveNoEffect :
    (0xFFFFFFFF00000001 : Word64).extractLsb' 0 32 = (1 : Word64).extractLsb' 0 32 := by decide

theorem witness_ResponseWordDeterminesResponse : ∃ r r' : Response, r.word = r'.word := ⟨⟨.ok, 1⟩, ⟨.ok, 1⟩, rfl⟩

theorem witness_FeedbackIsTapParity :
    ∀ i ∈ [31, 21, 1, 0], (0x7FDFFFFC#32).getLsbD i = (0x00000000#32).getLsbD i := by decide

theorem witness_StepIsABijection : (1 : Word32) ≠ 0#32 ∧ (1 : Word32) ≠ 2 := by decide

theorem witness_StepIsLinearWithRecurrence :
    ∃ u : Nat → Bool, ∀ n, u n = (lfsrStep^[n] 0x00000001#32).getLsbD 0 := ⟨_, fun _ => rfl⟩

theorem witness_ClaimedPeriodFails : 4294967295 + 1 = 2 ^ 32 := by decide

theorem witness_PeriodOfEverySeed :
    (0x2E5CB972 : Word32) ≠ 0#32 ∧ (0xFFFFFFFF2E5CB972 : Word64).extractLsb' 0 32 = 0x2E5CB972#32 := by decide

theorem witness_SeedConstructsOrRejects :
    (0xFFFFFFFF00000001 : Word64).extractLsb' 0 32 ≠ 0#32 ∧ (0xFFFFFFFF00000000 : Word64).extractLsb' 0 32 = 0#32 := by decide

theorem witness_NextAdvancesAndReturnsNewState :
    (block 3).engine = some 3 ∧ (3 : Word32) ≠ 0#32 ∧ unseeded.engine = none := by decide

theorem witness_RandSamplesTheRange :
    (block 3).engine = some 3 ∧ (0x8000000000000000 : Word64).toInt ≤ (0x8000000000000000 : Word64).toInt ∧
    (0x8000000000000000 : Word64).toInt < (0x8000000000000001 : Word64).toInt ∧ unseeded.engine = none := by decide

theorem witness_NextIsRandWithDefaultRange : 0xFFFFFFFF ≤ (0x00000000FFFFFFFF : Word64).toInt := by decide

theorem witness_OneValueRangeStillAdvances : (block 1).engine = some 1 := by decide

theorem witness_RangeMapperLaws :
    ((-2 : Int) ^ 63 ≤ -9223372036854775808 ∧ (9223372036854775807 : Int) < 2 ^ 63 ∧
      (-9223372036854775808 : Int) ≤ 9223372036854775807) ∧
    (((5 : Word32).toNat : Int) < rangeSize 0 9 ∧ 2 ^ 32 ≤ rangeSize 0 4294967295) := by decide

theorem witness_DatapathComputesRangeMapper :
    (0x8000000000000000 : Word64).toInt ≤ (0x7FFFFFFFFFFFFFFF : Word64).toInt ∧
    ((0xFFFFFFFD : Word64).toInt ≤ (0xFFFFFFFD : Word64).toInt ∧ ((0xFFFFFFFD : Word64) - 0).toNat < 0xFFFFFFFF) := by decide

theorem witness_RandSampleLiesInRange : answers (exec (.rand 50 50) (block 3)) (some 1) .ok 50 = true := by decide

theorem witness_PowerOfTwoRangeTakesLowBits :
    (block 1).engine = some 1 ∧ (0 ≤ 32 ∧ (7 : Word64).toInt - (7 : Word64).toInt + 1 = 2 ^ 0) ∧
    (32 ≤ 32 ∧ (0xFFFFFFFF : Word64).toInt - (0 : Word64).toInt + 1 = 2 ^ 32) := by decide

theorem witness_ErrorsInARowLeaveTheEngine :
    (∀ w ∈ [reservedWord, randInverted, seedZero],
      priorityStatus (cmdOp w) (cmdA w) (cmdB w) (block 1).engine.isSome ≠ .ok) ∧
    (withInputs (block 1) ([reservedWord, randInverted, seedZero].map .cmd ++ [.idle])).inputs =
      [reservedWord, randInverted, seedZero].map .cmd ++ [.idle] := by
  refine ⟨?_, rfl⟩
  simp only [List.forall_mem_cons, List.not_mem_nil, false_imp_iff, implies_true, and_true]
  decide

theorem witness_ReadsAndWritesOfEachAction :
    (withInputs (block 1) [.reset]).inputs = .reset :: [] ∧ (withInputs (block 1) [.cmd seedOne]).inputs = .cmd seedOne :: [] ∧
    decode seedOne = .seed 1 0 ∧ (1 : Word64).extractLsb' 0 32 ≠ 0#32 ∧
    decode seedZero = .seed 0 0 ∧ (0 : Word64).extractLsb' 0 32 = 0#32 ∧
    decode nextWord = .next 0 0 ∧ (block 1).engine = some 1 ∧ unseeded.engine = none ∧
    decode randFifty = .rand 50 50 ∧ (50 : Word64).toInt ≤ (50 : Word64).toInt ∧
    decode randInverted = .rand 10 5 ∧ (5 : Word64).toInt < (10 : Word64).toInt ∧
    (decode reservedWord).mnemonic = "RESERVED3" ∧ (block 1).engine.isSome = (block 2).engine.isSome := by decide

/-- The three clauses of the obligation that compare two outcomes have outcomes to compare. -/
theorem witness_ReadsAndWrites_outcomes :
    answers (exec (.seed 1 0) (block 1)) (some 1) .ok 0 = true ∧ answers (exec (.seed 1 0) unseeded) (some 1) .ok 0 = true ∧
    answers (exec (.reserved3 1 0) (block 1)) (some 1) .illegalCmd 0 = true ∧
    answers (exec (.rand 10 5) (block 1)) (some 1) .invalidRange 0 = true ∧
    answers (exec (.rand 10 5) (block 2)) (some 2) .invalidRange 0 = true := by decide

theorem witness_SeededSetBySeedClearedByReset :
    answers (step (withInputs unseeded [.cmd seedOne])) (some 1) .ok 0 = true ∧
    step (withInputs (block 1) [.reset]) = .next unseeded := ⟨by decide, rfl⟩

theorem witness_LfsrWrittenOnlyByItsWriters :
    answers (step (withInputs (block 3) [.cmd nextWord])) (some 1) .ok 1 = true ∧ (some 1 : Option Word32) ≠ some 3 := by decide

theorem witness_CommandFrame :
    answers (exec (.seed 0 0) (block 1)) (some 1) .invalidSeed 0 = true ∧ Instr.draws (.seed 0 0) = false ∧
    Instr.constructs (.seed 0 0) = false ∧ (block 1).engine.isSome = true ∧ unseeded.engine = none ∧
    answers (exec (.seed 0 0) unseeded) none .invalidSeed 0 = true := by decide

theorem witness_StepKeepsNonZeroInvariant :
    (withInputs (block 3) [.cmd nextWord]).Inv ∧ answers (step (withInputs (block 3) [.cmd nextWord])) (some 1) .ok 1 = true := by
  decide

theorem witness_RegisterNeverZeroUnderAnyHost :
    answers (Host.Core.run core 2 { State.reset with inputs := [.cmd seedOne, .cmd nextWord] })
      (some 0x80000000) .ok 0x80000000 = true := by decide

theorem witness_StepKeepsResponseInvariant :
    (withInputs unseeded [.cmd nextWord]).RspInv ∧
    answers (step (withInputs unseeded [.cmd nextWord])) none .notSeeded 0 = true :=
  ⟨fun r h => by simp [withInputs, unseeded] at h, by decide⟩

theorem witness_StepRunsTheDecodedCommand :
    (withInputs (block 1) [.cmd nextWord, .idle]).inputs = .cmd nextWord :: [.idle] ∧ (2 ^ 130 - 1) % 2 ^ 136 < 2 ^ 130 := by
  decide

theorem witness_ResetLeavesAnUnseededBlock :
    (withInputs (block 1) [.reset, .reset]).inputs = .reset :: .reset :: [] ∧
    (withInputs (block 1) [.reset, .cmd nextWord]).inputs = .reset :: .cmd nextWord :: [] ∧
    (decode nextWord).mnemonic = "NEXT" ∧ (decode randFifty).mnemonic = "RAND" ∧
    Pins.rst { nextPins with rst := true } = true := by decide

theorem witness_IdleHoldsTheState :
    (block 1).inputs = [] ∧ (withInputs (block 1) [.idle, .reset]).inputs = .idle :: [.reset] := by decide

theorem witness_OneResponsePerCommand :
    answers (step (withInputs (block 3) [.cmd nextWord])) (some 1) .ok 1 = true := by decide

theorem witness_UnseededUntilSeedSucceeds :
    (withInputs unseeded [.cmd nextWord, .reset, .cmd seedZero]).engine = none ∧
    ∀ w, .cmd w ∈ (withInputs unseeded [.cmd nextWord, .reset, .cmd seedZero]).inputs → (decode w).constructs = false := by
  refine ⟨rfl, fun w h => ?_⟩
  simp only [withInputs, List.mem_cons, HostAction.cmd.injEq, reduceCtorEq, List.not_mem_nil, or_false, false_or] at h
  rcases h with rfl | rfl <;> decide

theorem witness_ObservationsDependOnEngineAndInputs :
    (block 1).engine = State.engine { block 1 with rsp := some ⟨.illegalCmd, 0⟩ } ∧
    (block 1).inputs = State.inputs { block 1 with rsp := some ⟨.illegalCmd, 0⟩ } := by decide

theorem witness_SeedForgetsThePast :
    (withInputs unseeded [.cmd seedOne, .cmd nextWord]).inputs = .cmd seedOne :: [.cmd nextWord] ∧
    (withInputs (block 9) [.cmd seedOneWide, .cmd nextWord]).inputs = .cmd seedOneWide :: [.cmd nextWord] ∧
    cmdOp seedOne = 0#2 ∧ cmdOp seedOneWide = 0#2 ∧
    (cmdA seedOne).extractLsb' 0 32 = (cmdA seedOneWide).extractLsb' 0 32 ∧ (cmdA seedOne).extractLsb' 0 32 ≠ 0#32 := by decide

theorem witness_SeedThenNextGivesTheStream :
    (1 : Word64).extractLsb' 0 32 ≠ 0#32 ∧ [nextWord, nextWord].length = 2 ∧ (∀ w ∈ [nextWord, nextWord], cmdOp w = 1#2) ∧
    (withInputs unseeded (.cmd seedOne :: ([nextWord, nextWord].map .cmd ++ []))).inputs =
      .cmd (encode (.seed 1 0)) :: ([nextWord, nextWord].map .cmd ++ []) := by
  refine ⟨by decide, rfl, fun w hw => ?_, ?_⟩
  · have h : w = nextWord := by simpa using hw
    rw [h]
    decide
  rw [show encode (.seed 1 0) = seedOne by decide]
  rfl

theorem witness_StreamPositionCountsSuccessfulSamples :
    (withInputs (block 1) ([randInverted, randFifty, nextWord, reservedWord, seedZero].map .cmd ++ [])).engine = some 1 ∧
    (∀ w ∈ [randInverted, randFifty, nextWord, reservedWord, seedZero], (decode w).constructs = false) ∧
    ([randInverted, randFifty, nextWord, reservedWord, seedZero].countP fun w => (decode w).draws) = 2 := by
  refine ⟨rfl, ?_, by decide⟩
  simp only [List.forall_mem_cons, List.not_mem_nil, false_imp_iff, implies_true, and_true]
  decide

/-- A clocked block whose command responds in the next cycle. -/
def responding : Clocked := { engine := some 1, inFlight := some ⟨nextWord, 0⟩, accepted := 1 }

theorem witness_HandshakeReadiness :
    responding.inFlight ≠ none ∧ clocked.inFlight = none ∧ quietPins.rst = false ∧
    (responding.cycle quietPins).1.rsp ≠ none := by
  refine ⟨by decide, by decide, by decide, ?_⟩
  rw [cycle_responding (f := ⟨nextWord, 0⟩) rfl rfl rfl]
  decide

theorem witness_ResponseAfterLatency :
    ∃ ps : List Pins, clocked.inFlight = none ∧ nextPins.rst = false ∧ nextPins.cmdValid = true ∧
      (∀ q ∈ ps, q.rst = false) ∧ ps.length = Config.latency clocked.accepted nextPins.word :=
  ⟨List.replicate (Config.latency clocked.accepted nextPins.word) quietPins, rfl, rfl, rfl,
    fun q h => by rw [List.eq_of_mem_replicate h]; rfl, List.length_replicate⟩

theorem witness_ResetAbandonsCommandInFlight :
    Pins.rst { quietPins with rst := true } = true ∧ responding.inFlight = some ⟨nextWord, 0⟩ := by decide

end Sys2Proof.Tests
end

section
/-! SUPPORT. Progress: no step ends in a fault or a refusal (00_scope.md R9). -/

namespace Sys2Proof.Machine

/-- Settles O42, by the action the host presents next: every command has a next state (`exec_next`), and a reset or an idle
step is one by definition. -/
theorem everyStepGoesOn : Obligations.EveryStepGoesOn := by
  intro s
  match hi : s.inputs with
  | [] => exact ⟨_, step_nil hi⟩
  | .idle :: _ => exact ⟨_, step_idle hi⟩
  | .reset :: _ => exact ⟨_, step_reset hi⟩
  | .cmd w :: rest =>
    obtain ⟨t, -, ht, -⟩ := exec_next (decode w) { s with inputs := rest }
    exact ⟨t, (step_cmd hi).trans ht⟩

end Sys2Proof.Machine
end

section
/-! SUPPORT. The register under `step`: `unstep` undoes it, so no step leads to zero from another value
(41_step_function.md R75). -/

namespace Sys2Proof.Machine

/-- The bit that the shift discards is recovered from the feedback bit and the three other taps, which the shift keeps. -/
theorem lfsrUnstep_lfsrStep (x : Word32) : lfsrUnstep (lfsrStep x) = x := by
  apply BitVec.eq_of_getLsbD_eq
  intro i hi
  rw [lfsrUnstep_getLsbD _ i hi]
  simp only [lfsrStep_getLsbD]
  by_cases h0 : i = 0
  · subst h0
    simp only [fb, tap3, tap2, tap1, tap0, if_true]
    cases x.getLsbD 31 <;> cases x.getLsbD 21 <;> cases x.getLsbD 1 <;> simp
  · have h31 : i - 1 ≠ 31 := by omega
    have hsucc : i - 1 + 1 = i := by omega
    rw [if_neg h0, if_neg h31, hsucc]

/-- 41_step_function.md R75 (a). -/
theorem lfsrStep_ne_zero {x : Word32} (hx : x ≠ 0#32) : lfsrStep x ≠ 0#32 := by
  intro h
  have hback := lfsrUnstep_lfsrStep x
  rw [h] at hback
  exact hx (hback.symm.trans (by decide))

end Sys2Proof.Machine
end

section
/-! SUPPORT. What a command and a step can do to the engine, said once for all commands (10_state.md R20). -/

namespace Sys2Proof.Machine

variable {a b : Word64} {i : Instr} {w : CmdWord} {s t : State}

@[simp] theorem constructs_seed : (Instr.seed a b).constructs = !zeroSeed a := rfl
@[simp] theorem constructs_next : (Instr.next a b).constructs = false := rfl
@[simp] theorem constructs_rand : (Instr.rand a b).constructs = false := rfl
@[simp] theorem constructs_reserved3 : (Instr.reserved3 a b).constructs = false := rfl

@[simp] theorem draws_seed : (Instr.seed a b).draws = false := rfl
@[simp] theorem draws_next : (Instr.next a b).draws = true := rfl
@[simp] theorem draws_rand : (Instr.rand a b).draws = !invertedRange a b := rfl
@[simp] theorem draws_reserved3 : (Instr.reserved3 a b).draws = false := rfl

@[simp] theorem fieldA_decode (w : CmdWord) : (decode w).fieldA = cmdA w := by
  rcases decode_cases w with ⟨-, h⟩ | ⟨-, h⟩ | ⟨-, h⟩ | ⟨-, h⟩ <;> rw [h] <;> rfl

/-- A word that constructs an engine is a SEED whose low half is not zero (40_seed.md R61). -/
theorem constructs_decode (h : (decode w).constructs = true) :
    decode w = .seed (cmdA w) (cmdB w) ∧ (cmdA w).extractLsb' 0 32 ≠ 0#32 := by
  rcases decode_cases w with ⟨-, e⟩ | ⟨-, e⟩ | ⟨-, e⟩ | ⟨-, e⟩ <;> rw [e] at h
  · exact ⟨e, zeroSeed_eq_false.mp (by simpa using h)⟩
  · cases h
  · cases h
  · cases h

/-- No command changes what the host has still to present. -/
theorem exec_inputs (h : exec i s = .next t) : t.inputs = s.inputs := by
  cases i with
  | seed a b => rcases exec_seed_cases h with ⟨-, rfl⟩ | ⟨-, rfl⟩ <;> rfl
  | next a b => rcases exec_next_cases h with ⟨-, rfl⟩ | ⟨_, -, rfl⟩ <;> rfl
  | rand a b => rcases exec_rand_cases h with ⟨-, rfl⟩ | ⟨-, -, rfl⟩ | ⟨_, -, -, rfl⟩ <;> rfl
  | reserved3 a b => rw [exec_reserved3_cases h]

/-- All that a command can do to the engine: a SEED constructs one, a draw advances the one there is, and any other command,
or a draw without an engine, leaves it. -/
theorem exec_engine_cases (h : exec i s = .next t) :
    (i.constructs = true ∧ t.engine = some (i.fieldA.extractLsb' 0 32)) ∨
    (i.draws = true ∧ ∃ x, s.engine = some x ∧ t.engine = some (lfsrStep x)) ∨
    (i.constructs = false ∧ (i.draws = true → s.engine = none) ∧ t.engine = s.engine) := by
  cases i with
  | seed a b =>
    rcases exec_seed_cases h with ⟨hz, rfl⟩ | ⟨hz, rfl⟩
    · exact .inr (.inr ⟨by simp [hz], by simp, rfl⟩)
    · exact .inl ⟨by simp [hz], rfl⟩
  | next a b =>
    rcases exec_next_cases h with ⟨he, rfl⟩ | ⟨x, he, rfl⟩
    · exact .inr (.inr ⟨rfl, fun _ => he, rfl⟩)
    · exact .inr (.inl ⟨rfl, x, he, rfl⟩)
  | rand a b =>
    rcases exec_rand_cases h with ⟨he, rfl⟩ | ⟨-, hr, rfl⟩ | ⟨x, he, hr, rfl⟩
    · exact .inr (.inr ⟨rfl, fun _ => he, rfl⟩)
    · exact .inr (.inr ⟨rfl, by simp [hr], rfl⟩)
    · exact .inr (.inl ⟨by simp [hr], x, he, rfl⟩)
  | reserved3 a b =>
    rw [exec_reserved3_cases h]
    exact .inr (.inr ⟨rfl, by simp, rfl⟩)

/-- All that a step can do to the engine: a reset takes it away, a SEED constructs one, a draw advances the one there is, and
any other step leaves it. -/
theorem step_engine_cases (h : step s = .next t) :
    (∃ rest, s.inputs = .reset :: rest ∧ t.engine = none) ∨
    (∃ w rest, s.inputs = .cmd w :: rest ∧ (decode w).constructs = true ∧
      t.engine = some ((cmdA w).extractLsb' 0 32)) ∨
    (∃ w rest x, s.inputs = .cmd w :: rest ∧ (decode w).draws = true ∧ s.engine = some x ∧
      t.engine = some (lfsrStep x)) ∨
    t.engine = s.engine := by
  rcases step_cases h with ⟨-, rfl⟩ | ⟨rest, -, rfl⟩ | ⟨rest, hi, rfl⟩ | ⟨w, rest, hi, hx⟩
  · exact .inr (.inr (.inr rfl))
  · exact .inr (.inr (.inr rfl))
  · exact .inl ⟨rest, hi, rfl⟩
  · rcases exec_engine_cases hx with ⟨hc, ht⟩ | ⟨hd, x, hs, ht⟩ | ⟨-, -, ht⟩
    · exact .inr (.inl ⟨w, rest, hi, hc, fieldA_decode w ▸ ht⟩)
    · exact .inr (.inr (.inl ⟨w, rest, x, hi, hd, hs, ht⟩))
    · exact .inr (.inr (.inr ht))

/-- What SEED leaves in the engine (40_seed.md R61, R62). -/
theorem exec_seed_engine (h : exec (.seed a b) s = .next t) :
    t.engine = if zeroSeed a then s.engine else some (a.extractLsb' 0 32) := by
  rcases exec_seed_cases h with ⟨hz, rfl⟩ | ⟨hz, rfl⟩ <;> simp [hz, seedOf, u32]

/-- What NEXT leaves in the engine (42_next.md R81). -/
theorem exec_next_engine (h : exec (.next a b) s = .next t) : t.engine = s.engine.map lfsrStep := by
  rcases exec_next_cases h with ⟨he, rfl⟩ | ⟨x, he, rfl⟩ <;> simp [he]

/-- What RAND leaves in the engine (43_random_int.md R91, R95). -/
theorem exec_rand_engine (h : exec (.rand a b) s = .next t) :
    t.engine = if invertedRange a b then s.engine else s.engine.map lfsrStep := by
  rcases exec_rand_cases h with ⟨he, rfl⟩ | ⟨-, hr, rfl⟩ | ⟨x, he, hr, rfl⟩
  · simp [he]
  · simp [hr]
  · simp [he, hr]

/-- The response of a SEED is a function of its operand. -/
theorem exec_seed_rsp (h : exec (.seed a b) s = .next t) :
    t.rsp = some ⟨if zeroSeed a then .invalidSeed else .ok, 0#64⟩ := by
  rcases exec_seed_cases h with ⟨hz, rfl⟩ | ⟨hz, rfl⟩ <;> simp [hz]

/-- The response of an inverted RAND is a function of `seeded` (60_exceptions.md R113, R117). -/
theorem exec_rand_rsp_of_inverted (hr : b.toInt < a.toInt) (h : exec (.rand a b) s = .next t) :
    t.rsp = some ⟨if s.engine.isSome then .invalidRange else .notSeeded, 0#64⟩ := by
  rcases exec_rand_cases h with ⟨he, rfl⟩ | ⟨he, -, rfl⟩ | ⟨x, -, hf, -⟩
  · simp [he]
  · simp [Option.isSome_iff_ne_none.mpr he]
  · exact absurd (invertedRange_eq_false.mp hf) (Int.not_le.mpr hr)

end Sys2Proof.Machine
end

section
/-! SUPPORT. The invariant of 10_state.md R13: it holds after reset, every step keeps it, so every run from reset has it. -/

namespace Sys2Proof.Machine

/-- Settles O34: the fields of the state after reset. -/
theorem resetStateIsUnseeded : Obligations.ResetStateIsUnseeded := ⟨rfl, reset_engine, reset_rsp⟩

/-- Settles O35: no engine, so none that holds zero. -/
theorem resetHasNonZeroInvariant : Obligations.ResetHasNonZeroInvariant := by
  unfold Obligations.ResetHasNonZeroInvariant
  simp [State.Inv]

/-- Settles O36, by the writers of the engine: a seed that is loaded is not zero, and `step` leads to zero from zero only
(`lfsrStep_ne_zero`). -/
theorem stepKeepsNonZeroInvariant : Obligations.StepKeepsNonZeroInvariant := by
  intro s t hs h
  rcases step_engine_cases h with ⟨_, -, ht⟩ | ⟨w, _, -, hc, ht⟩ | ⟨_, _, x, -, -, hx, ht⟩ | ht
  · simp [ht]
  · simpa [ht] using (constructs_decode hc).2
  · have hne : x ≠ 0#32 := fun h0 => hs (h0 ▸ hx)
    simpa [ht] using lfsrStep_ne_zero hne
  · simpa [ht] using hs

/-- Settles O37, by induction over the run (`run_keeps`) from the reset state, whose engine the host's actions do not touch. -/
theorem registerNeverZeroUnderAnyHost : Obligations.RegisterNeverZeroUnderAnyHost := by
  intro actions n t h
  have hstart : State.Inv { State.reset with inputs := actions } := resetHasNonZeroInvariant
  exact run_keeps stepKeepsNonZeroInvariant n _ t hstart h

end Sys2Proof.Machine
end

section
/-! SUPPORT. Who writes what: the frame of the commands and the writers of `seeded` and of the register (10_state.md R10, R11,
R20). -/

namespace Sys2Proof.Machine

/-- Settles O33, by the three things a command can do to the engine (`exec_engine_cases`). -/
theorem commandFrame : Obligations.CommandFrame := by
  intro i s t h
  refine ⟨exec_inputs h, ?_⟩
  rcases exec_engine_cases h with ⟨hc, ht⟩ | ⟨hd, x, hs, ht⟩ | ⟨-, -, ht⟩
  · simp [hc, ht]
  · simp [hd, hs, ht]
  · simpa [ht] using fun hn _ => hn

/-- Settles O32: `step_engine_cases`, where the engine changed. -/
theorem lfsrWrittenOnlyByItsWriters : Obligations.LfsrWrittenOnlyByItsWriters := by
  intro s t h hne
  rcases step_engine_cases h with hreset | hseed | hdraw | hkept
  · exact .inl hreset
  · exact .inr (.inl hseed)
  · exact .inr (.inr hdraw)
  · exact absurd hkept hne

/-- Settles O31, by the writers of the engine: a draw needs an engine and leaves one. -/
theorem seededSetBySeedClearedByReset : Obligations.SeededSetBySeedClearedByReset := by
  intro s t h
  rcases step_engine_cases h with ⟨rest, hi, ht⟩ | ⟨w, rest, hi, hc, ht⟩ | ⟨_, _, _, -, -, hs, ht⟩ | ht
  · exact ⟨by simp [ht], fun _ _ => ⟨rest, hi⟩⟩
  · obtain ⟨hd, hne⟩ := constructs_decode hc
    refine ⟨fun x _ hx => ?_, by simp [ht]⟩
    obtain rfl : (cmdA w).extractLsb' 0 32 = x := Option.some.inj (ht.symm.trans hx)
    exact ⟨w, rest, cmdA w, cmdB w, hi, hd, rfl, hne⟩
  · simp [hs, ht]
  · rw [ht]
    exact ⟨fun x hn hx => by simp [hn] at hx, fun hn he => absurd he hn⟩

/-- Settles O30: each row is what its command leaves in the engine (`exec_seed_engine` and its companions), and the responses
that do not read the register are those of `exec_seed_rsp`, `exec_reserved3_cases` and `exec_rand_rsp_of_inverted`. -/
theorem readsAndWritesOfEachAction : Obligations.ReadsAndWritesOfEachAction := by
  refine ⟨fun s rest hi => ⟨_, step_reset hi, rfl, rfl⟩, fun s w rest hi => ?_, fun a b s s' t t' => ⟨?_, ?_, ?_⟩⟩
  · obtain ⟨t, -, ht, -⟩ := exec_next (decode w) { s with inputs := rest }
    refine ⟨t, (step_cmd hi).trans ht, exec_inputs ht, fun a b e ha => ?_, fun a b e ha => ?_, fun a b x e hx => ?_,
      fun a b e hn => ?_, fun a b x e hx hr => ?_, fun a b e hr => ?_, fun a b e hn => ?_, fun a b e => ?_⟩ <;>
      rw [e] at ht
    · simpa [zeroSeed_eq_false.mpr ha] using exec_seed_engine ht
    · simpa [zeroSeed_eq_true.mpr ha] using exec_seed_engine ht
    · simpa [hx] using exec_next_engine ht
    · simpa [hn] using exec_next_engine ht
    · simpa [hx, invertedRange_eq_false.mpr hr] using exec_rand_engine ht
    · simpa [invertedRange_eq_true.mpr hr] using exec_rand_engine ht
    · simpa [hn] using exec_rand_engine ht
    · rw [exec_reserved3_cases ht]
  · exact fun h h' => (exec_seed_rsp h).trans (exec_seed_rsp h').symm
  · intro h h'
    rw [exec_reserved3_cases h, exec_reserved3_cases h']
  · intro hr he h h'
    rw [exec_rand_rsp_of_inverted hr h, exec_rand_rsp_of_inverted hr h', he]

end Sys2Proof.Machine
end

section
/-! SUPPORT. The response port is written by every step and read by none, so what a host observes does not depend on it
(20_memory.md R36; 43_random_int.md R98). -/

namespace Sys2Proof.Machine

/-- No command reads the response port, and every command writes it. -/
theorem exec_set_rsp (i : Instr) (s : State) (r : Option Response) : exec i { s with rsp := r } = exec i s := by
  cases i with
  | seed a b => rfl
  | next a b => rfl
  | rand a b => rfl
  | reserved3 a b => rfl

/-- No host action reads the response port, and every one writes it: a reset and an idle step leave it empty. -/
theorem perform_set_rsp (action : HostAction) (s : State) (r : Option Response) :
    perform action { s with rsp := r } = perform action s := by
  cases action with
  | reset => rfl
  | cmd w => exact exec_set_rsp (decode w) s r
  | idle => rfl

/-- A step is a function of the engine and of what the host presents. -/
theorem step_eq_of_engine_inputs {s s' : State} (he : s.engine = s'.engine) (hi : s.inputs = s'.inputs) :
    step s = step s' := by
  obtain ⟨e, r, inputs⟩ := s
  obtain ⟨e', r', inputs'⟩ := s'
  obtain rfl : e = e' := he
  obtain rfl : inputs = inputs' := hi
  cases inputs with
  | nil => exact perform_set_rsp .idle ⟨e, r', []⟩ r
  | cons action rest => exact perform_set_rsp action ⟨e, r', rest⟩ r

/-- Settles O45: the two states step to one and the same state (`step_eq_of_engine_inputs`), so from the first response on
there is only one run to observe. -/
theorem observationsDependOnEngineAndInputs : Obligations.ObservationsDependOnEngineAndInputs := by
  intro n s s' he hi
  cases n with
  | zero => rfl
  | succ n =>
    obtain ⟨t, ht⟩ := everyStepGoesOn s
    have ht' : step s' = .next t := (step_eq_of_engine_inputs he hi).symm.trans ht
    rw [observe_succ ht, observe_succ ht']

end Sys2Proof.Machine
end

section
/-! SUPPORT. The encoding: `decode` and `encode` are inverse to each other, and the decoder follows the opcode table
(30_encoding.md R40, R42, R49). -/

namespace Sys2Proof

@[simp] theorem encode_seed (a b : Word64) : encode (.seed a b) = cmdWord 0#2 a b := rfl
@[simp] theorem encode_next (a b : Word64) : encode (.next a b) = cmdWord 1#2 a b := rfl
@[simp] theorem encode_rand (a b : Word64) : encode (.rand a b) = cmdWord 2#2 a b := rfl
@[simp] theorem encode_reserved3 (a b : Word64) : encode (.reserved3 a b) = cmdWord 3#2 a b := rfl

@[simp] theorem opcode_decode (w : CmdWord) : (decode w).opcode = cmdOp w := by
  rcases decode_cases w with ⟨hop, h⟩ | ⟨hop, h⟩ | ⟨hop, h⟩ | ⟨hop, h⟩ <;> rw [h, hop] <;> rfl

@[simp] theorem fieldB_decode (w : CmdWord) : (decode w).fieldB = cmdB w := by
  rcases decode_cases w with ⟨-, h⟩ | ⟨-, h⟩ | ⟨-, h⟩ | ⟨-, h⟩ <;> rw [h] <;> rfl

/-- Settles O1: the opcode in the word selects the constructor, and the fields come back as they were put in
(`cmdOp_cmdWord` and its companions). -/
theorem decodeOfEncode : Obligations.DecodeOfEncode := by
  intro i
  cases i with
  | seed a b => rw [encode_seed, decode_op0 (cmdOp_cmdWord _ _ _), cmdA_cmdWord, cmdB_cmdWord]
  | next a b => rw [encode_next, decode_op1 (cmdOp_cmdWord _ _ _), cmdA_cmdWord, cmdB_cmdWord]
  | rand a b => rw [encode_rand, decode_op2 (cmdOp_cmdWord _ _ _), cmdA_cmdWord, cmdB_cmdWord]
  | reserved3 a b => rw [encode_reserved3, decode_op3 (cmdOp_cmdWord _ _ _), cmdA_cmdWord, cmdB_cmdWord]

/-- Settles O2: the decoder keeps the three fields, and a word is its three fields (`cmdWord_fields`). -/
theorem encodeOfDecode : Obligations.EncodeOfDecode := by
  intro w
  rw [encode, opcode_decode, Machine.fieldA_decode, fieldB_decode, cmdWord_fields]

/-- Settles O4, by running the decoder on the six words. -/
theorem decodeOfWrittenWords : Obligations.DecodeOfWrittenWords := by
  unfold Obligations.DecodeOfWrittenWords
  decide

/-- Command words are masked field by field. -/
theorem cmdWord_and_cmdWord (op op' : Op) (a a' b b' : Word64) :
    cmdWord op a b &&& cmdWord op' a' b' = cmdWord (op &&& op') (a &&& a') (b &&& b') :=
  BitVec.and_append.trans (congrArg (· ++ (b &&& b')) BitVec.and_append)

/-- The mask of the opcode table keeps the opcode of a word and clears both operand fields. -/
theorem and_opcodeMask (w : CmdWord) : w &&& cmdWord 3#2 0#64 0#64 = cmdWord (cmdOp w) 0#64 0#64 := by
  have hop : cmdOp w &&& 3#2 = cmdOp w := BitVec.and_allOnes
  calc w &&& cmdWord 3#2 0#64 0#64
      = cmdWord (cmdOp w) (cmdA w) (cmdB w) &&& cmdWord 3#2 0#64 0#64 := by rw [cmdWord_fields]
    _ = cmdWord (cmdOp w) 0#64 0#64 := by rw [cmdWord_and_cmdWord, hop, BitVec.and_zero, BitVec.and_zero]

/-- A masked word is the pattern of an opcode exactly when it has that opcode (30_encoding.md R42). -/
theorem and_opcodeMask_eq_iff (w : CmdWord) (op : Op) :
    w &&& cmdWord 3#2 0#64 0#64 = cmdWord op 0#64 0#64 ↔ cmdOp w = op := by
  rw [and_opcodeMask]
  constructor
  · intro h
    simpa using congrArg cmdOp h
  · rintro rfl
    rfl

/-- The mnemonic and the opcode of a command determine each other. -/
theorem mnemonic_eq_iff_opcode_eq (i j : Instr) : i.mnemonic = j.mnemonic ↔ i.opcode = j.opcode := by
  cases i <;> cases j <;> simp [Instr.mnemonic, Instr.opcode]

/-- Every row of the table is the row of a command: its mnemonic, its opcode alone as the pattern, and the mask of the opcode
field. -/
theorem opcodeTable_row : ∀ r ∈ opcodeTable,
    ∃ i : Instr, r = ⟨i.mnemonic, cmdWord i.opcode 0#64 0#64, cmdWord 3#2 0#64 0#64⟩ := by
  simp only [opcodeTable, List.forall_mem_cons, List.not_mem_nil, false_imp_iff, implies_true, and_true]
  exact ⟨⟨.seed 0 0, by decide⟩, ⟨.next 0 0, by decide⟩, ⟨.rand 0 0, by decide⟩, ⟨.reserved3 0 0, by decide⟩⟩

/-- Settles O3: mask and pattern of a row test the opcode of the word (`and_opcodeMask_eq_iff`), which is that of the decoded
command and determines its mnemonic. -/
theorem decoderFollowsOpcodeTable : Obligations.DecoderFollowsOpcodeTable := by
  intro w r hr
  obtain ⟨i, rfl⟩ := opcodeTable_row r hr
  rw [mnemonic_eq_iff_opcode_eq, opcode_decode, OpcodeRow.holds, beq_iff_eq, and_opcodeMask_eq_iff]

end Sys2Proof
end

section
/-! SUPPORT. The words the assembler writes (30_encoding.md R50, R51). -/

namespace Sys2Proof.Machine

/-- A signed 64-bit value is read back from its vector (00_scope.md R7). -/
theorem toInt_enc64 {n : Int} (hlo : -2 ^ 63 ≤ n) (hhi : n < 2 ^ 63) : (enc64 n).toInt = n :=
  BitVec.toInt_ofInt_eq_self (by decide) hlo hhi

/-- A line with a literal out of range is no line of the assembler. -/
theorem assemble_of_not_wf {line : AsmLine} (h : line.wf = false) : assemble line = none := by
  simp [assemble, h]

theorem assemble_seed {a : Nat} (h : a < 2 ^ 64) :
    assemble (.seed a) = some (.cmd (encode (.seed (BitVec.ofNat 64 a) 0#64))) :=
  if_pos (decide_eq_true h)

theorem assemble_new {a : Nat} (h : a < 2 ^ 64) : assemble (.new a) = assemble (.seed a) :=
  (if_pos (decide_eq_true h)).trans (assemble_seed h).symm

theorem assemble_rand {min max : Int} (hmin : -2 ^ 63 ≤ min ∧ min < 2 ^ 63) (hmax : -2 ^ 63 ≤ max ∧ max < 2 ^ 63) :
    assemble (.rand min max) = some (.cmd (encode (.rand (enc64 min) (enc64 max)))) := by
  have hwf : (AsmLine.rand min max).wf = true := by
    simp only [AsmLine.wf, isSigned64, Bool.and_eq_true, decide_eq_true_eq]
    exact ⟨hmin, hmax⟩
  exact if_pos hwf

/-- Settles O5: the lines without a bounded literal are words written out, the word of a RAND is decoded by `decodeOfEncode`,
and `toInt_enc64` reads its bounds back. -/
theorem assemblerWritesTheWords : Obligations.AssemblerWritesTheWords := by
  refine ⟨fun a ha => ⟨assemble_seed ha, assemble_new ha⟩, rfl, rfl, rfl, rfl, ?_, fun _ => assemble_of_not_wf⟩
  intro min max hmin hmin' hmax hmax'
  exact ⟨_, enc64 min, enc64 max, assemble_rand ⟨hmin, hmin'⟩ ⟨hmax, hmax'⟩, encode_rand _ _, decodeOfEncode _,
    toInt_enc64 hmin hmin', toInt_enc64 hmax hmax'⟩

end Sys2Proof.Machine
end

section
/-! SUPPORT. The response word (30_encoding.md R45, 60_exceptions.md R110). -/

namespace Sys2Proof.Machine

theorem response_word_status (r : Response) : r.word.extractLsb' 64 3 = r.status.code :=
  BitVec.extractLsb'_append_eq_left

theorem response_word_data (r : Response) : r.word.extractLsb' 0 64 = r.data :=
  BitVec.extractLsb'_append_eq_right

/-- Settles O7: the two fields of the concatenation, and the codes as they are defined. -/
theorem responseWordLayout : Obligations.ResponseWordLayout :=
  ⟨fun r => ⟨response_word_status r, response_word_data r⟩, rfl, rfl, rfl, rfl, rfl⟩

/-- Settles O8: equal words have equal fields, and a status is known by its code. -/
theorem responseWordDeterminesResponse : Obligations.ResponseWordDeterminesResponse := by
  intro r r' h
  have hcode : r.status.code = r'.status.code := by rw [← response_word_status, h, response_word_status]
  have hdata : r.data = r'.data := by rw [← response_word_data, h, response_word_data]
  calc r = ⟨r.status, r.data⟩ := rfl
    _ = ⟨r'.status, r'.data⟩ := by rw [status_code_injective _ _ hcode, hdata]
    _ = r' := rfl

end Sys2Proof.Machine
end

section
/-! SUPPORT. Which operand fields a command reads, and opcode 3 (30_encoding.md R43, R48). -/

namespace Sys2Proof.Machine

/-- SEED reads its operand through the masked seed only (40_seed.md R60). -/
theorem exec_seed_congr {a a' : Word64} (b b' : Word64) (s : State) (h : seedOf a = seedOf a') :
    exec (.seed a b) s = exec (.seed a' b') s := by
  have hz : zeroSeed a' = zeroSeed a := by rw [zeroSeed, zeroSeed, h]
  cases hcase : zeroSeed a with
  | true => rw [exec_seed_of_zero b s hcase, exec_seed_of_zero b' s (hz.trans hcase)]
  | false => rw [exec_seed_of_ne b s hcase, exec_seed_of_ne b' s (hz.trans hcase), h]

theorem exec_reserved3 (a b : Word64) (s : State) : exec (.reserved3 a b) s = raise .illegalCmd s := rfl

/-- Settles O6: SEED by `exec_seed_congr`; the meanings of NEXT and opcode 3 do not mention their operands. -/
theorem ignoredFieldsHaveNoEffect : Obligations.IgnoredFieldsHaveNoEffect :=
  fun _ _ b b' s => ⟨exec_seed_congr b b' s, rfl, rfl⟩

/-- Settles O20: opcode 3 raises ILLEGAL_CMD, and raising writes the response only (`raise_eq`). -/
theorem reservedOpcodeAnswersIllegal : Obligations.ReservedOpcodeAnswersIllegal :=
  fun a b s => ⟨encode_reserved3 a b, (exec_reserved3 a b s).trans (raise_eq s .illegalCmd)⟩

end Sys2Proof.Machine
end

section
/-! SUPPORT. The response of a step: one for a command, with data 0 where it is an error, and none otherwise
(30_encoding.md R45, R46). -/

namespace Sys2Proof.Machine

variable {i : Instr} {s t : State}

/-- A command leaves a response, and one with an error status has data 0. -/
theorem exec_rsp_wf (h : exec i s = .next t) : ∃ r, t.rsp = some r ∧ r.wf = true := by
  cases i with
  | seed a b => rcases exec_seed_cases h with ⟨-, rfl⟩ | ⟨-, rfl⟩ <;> exact ⟨_, rfl, rfl⟩
  | next a b => rcases exec_next_cases h with ⟨-, rfl⟩ | ⟨_, -, rfl⟩ <;> exact ⟨_, rfl, rfl⟩
  | rand a b => rcases exec_rand_cases h with ⟨-, rfl⟩ | ⟨-, -, rfl⟩ | ⟨_, -, -, rfl⟩ <;> exact ⟨_, rfl, rfl⟩
  | reserved3 a b => rw [exec_reserved3_cases h]; exact ⟨_, rfl, rfl⟩

/-- All that a step can leave on the response port: nothing, where it performs no command, or the response of the command. -/
theorem step_rsp_cases (h : step s = .next t) :
    (t.rsp = none ∧ ∀ w rest, s.inputs ≠ .cmd w :: rest) ∨
    (∃ w rest r, s.inputs = .cmd w :: rest ∧ t.rsp = some r ∧ r.wf = true) := by
  rcases step_cases h with ⟨hi, rfl⟩ | ⟨_, hi, rfl⟩ | ⟨_, hi, rfl⟩ | ⟨w, rest, hi, hx⟩
  · exact .inl ⟨rfl, by simp [hi]⟩
  · exact .inl ⟨rfl, by simp [hi]⟩
  · exact .inl ⟨rfl, by simp [hi]⟩
  · obtain ⟨r, hr, hwf⟩ := exec_rsp_wf hx
    exact .inr ⟨w, rest, r, hi, hr, hwf⟩

/-- Settles O38: whatever the port held, a step leaves no response or that of a command (`step_rsp_cases`). -/
theorem stepKeepsResponseInvariant : Obligations.StepKeepsResponseInvariant := by
  intro s t _ h
  rcases step_rsp_cases h with ⟨hr, -⟩ | ⟨_, _, r, -, hr, hwf⟩
  · simp [State.RspInv, hr]
  · simpa [State.RspInv, hr] using hwf

/-- A step gives a response exactly when it performs a command (30_encoding.md R45). -/
theorem step_rsp_isSome_iff (h : step s = .next t) : t.rsp.isSome = true ↔ ∃ w rest, s.inputs = .cmd w :: rest := by
  rcases step_rsp_cases h with ⟨hr, hno⟩ | ⟨w, rest, r, hi, hr, -⟩
  · simp [hr, hno]
  · simp [hr, hi]

/-- The host action presents a command. -/
def HostAction.isCmd : HostAction → Bool
  | .reset => false
  | .cmd _ => true
  | .idle => false

/-- A step gives as many responses as there are commands in the one action it performs. -/
theorem step_rsp_toList_length (h : step s = .next t) :
    t.rsp.toList.length = (s.inputs.take 1).countP HostAction.isCmd := by
  rcases step_rsp_cases h with ⟨hr, hno⟩ | ⟨w, rest, r, hi, hr, -⟩
  · match hi : s.inputs with
    | [] => simp [hr]
    | .reset :: _ => simp [hr, HostAction.isCmd]
    | .idle :: _ => simp [hr, HostAction.isCmd]
    | .cmd w :: rest => exact absurd hi (hno w rest)
  · simp [hr, hi, HostAction.isCmd]

/-- The host observes one response per command among the actions performed (30_encoding.md R45, R46). -/
theorem observe_length (n : Nat) (s : State) :
    (observe n s).length = (s.inputs.take n).countP HostAction.isCmd := by
  induction n generalizing s with
  | zero => simp [observe]
  | succ n ih =>
    obtain ⟨t, ht⟩ := everyStepGoesOn s
    rw [observe_succ ht, List.length_append, ih, step_rsp_toList_length ht, step_inputs ht, Nat.add_comm n 1,
      List.take_add, List.countP_append, List.drop_one]

/-- Settles O43: the first clause is `step_rsp_isSome_iff`, the second `observe_length`, by induction on the number of
steps. -/
theorem oneResponsePerCommand : Obligations.OneResponsePerCommand := by
  refine ⟨fun s t => step_rsp_isSome_iff, fun n s => (observe_length n s).trans ?_⟩
  refine List.countP_congr fun action _ => ?_
  cases action with
  | reset => rfl
  | cmd w => rfl
  | idle => rfl

end Sys2Proof.Machine
end

section
/-! SUPPORT. The word that is presented is the command that runs (30_encoding.md R42, 70_reset_and_hazards.md R144). -/

namespace Sys2Proof.Machine

/-- A number that fits the command word is presented ahead of what the host had still to present. -/
theorem withFetchWord_of_lt (s : State) {nbits w : Nat} (h : w % 2 ^ nbits < 2 ^ 130) :
    s.withFetchWord nbits w = { s with inputs := .cmd (BitVec.ofNat 130 (w % 2 ^ nbits)) :: s.inputs } :=
  if_pos h

/-- Settles O39: `step_cmd`, for a state of `withFetchWord` with the word the table decoder reads. -/
theorem stepRunsTheDecodedCommand : Obligations.StepRunsTheDecodedCommand := by
  refine ⟨fun s w rest => step_cmd, fun s nbits w h => ⟨_, decodeTableWord_of_lt h, ?_⟩⟩
  rw [withFetchWord_of_lt s h, step_cmd rfl]

end Sys2Proof.Machine
end

section
/-! SUPPORT. SEED: what it constructs or rejects, and that it forgets the past (40_seed.md R60 to R63). -/

namespace Sys2Proof.Machine

/-- Settles O17: the test of the masked seed (`zeroSeed_eq_false`, `zeroSeed_eq_true`) selects between loading the register
and raising INVALID_SEED, which writes the response only. -/
theorem seedConstructsOrRejects : Obligations.SeedConstructsOrRejects :=
  fun a b s =>
    ⟨encode_seed a b, fun h => exec_seed_of_ne b s (zeroSeed_eq_false.mpr h),
      fun h => (exec_seed_of_zero b s (zeroSeed_eq_true.mpr h)).trans (raise_eq s .invalidSeed)⟩

/-- A step that performs a successful SEED leaves the masked operand, the response and the later actions, and nothing of the
engine or the response that stood before (40_seed.md R63). -/
theorem step_seed {s : State} {w : CmdWord} {rest : List HostAction} (hi : s.inputs = .cmd w :: rest)
    (hop : cmdOp w = 0#2) (hne : (cmdA w).extractLsb' 0 32 ≠ 0#32) :
    step s = .next { engine := some ((cmdA w).extractLsb' 0 32), rsp := some ⟨.ok, 0#64⟩, inputs := rest } := by
  obtain ⟨-, hok, -⟩ := seedConstructsOrRejects (cmdA w) (cmdB w) { s with inputs := rest }
  rw [step_cmd hi, decode_op0 hop, hok hne]

/-- What a host observes of a state is decided by the step it makes. -/
theorem observe_eq_of_step_eq {s s' : State} (h : step s = step s') (n : Nat) : observe n s = observe n s' := by
  cases n with
  | zero => rfl
  | succ n => simp only [observe, h]

/-- Settles O46: both blocks step to the state of `step_seed`, in which only the masked operand and the later actions stand,
and from one state there is one run to observe. -/
theorem seedForgetsThePast : Obligations.SeedForgetsThePast := by
  intro w w' rest s s' hi hi' hop hop' hseed hne
  have hstep := step_seed hi hop hne
  have hstep' := step_seed hi' hop' (hseed ▸ hne)
  have heq : step s' = step s := by rw [hstep, hstep', hseed]
  exact ⟨hstep, heq, observe_eq_of_step_eq heq.symm⟩

end Sys2Proof.Machine
end

section
/-! SUPPORT. The feedback bit and the bits of one step (41_step_function.md R71, R72). -/

namespace Sys2Proof.Machine

/-- `fb` as the XOR of the four taps, the taps written out (41_step_function.md R70, R71). -/
theorem fb_eq_xor_taps (s : Word32) : fb s = (s.getLsbD 31 ^^ s.getLsbD 21 ^^ s.getLsbD 1 ^^ s.getLsbD 0) := rfl

/-- An XOR of four bits is 1 exactly when an odd number of them are. -/
theorem xor_four_eq_true_iff : ∀ a b c d : Bool, (a ^^ b ^^ c ^^ d) = true ↔ [a, b, c, d].countP id % 2 = 1 := by decide

/-- Settles O9: the definition with the taps written out, and the parity of four bits (`xor_four_eq_true_iff`). -/
theorem feedbackIsTapParity : Obligations.FeedbackIsTapParity := by
  refine ⟨fb_eq_xor_taps, fun s => ?_, fun s s' h => ?_⟩
  · have hcount : ([31, 21, 1, 0].countP fun i => s.getLsbD i) = ([31, 21, 1, 0].map s.getLsbD).countP id :=
      List.countP_map.symm
    rw [fb_eq_xor_taps, xor_four_eq_true_iff, hcount]
    rfl
  · rw [fb_eq_xor_taps, fb_eq_xor_taps, h 31 (by decide), h 21 (by decide), h 1 (by decide), h 0 (by decide)]

theorem lfsrStep_getLsbD_31 (s : Word32) : (lfsrStep s).getLsbD 31 = fb s := by
  rw [lfsrStep_getLsbD, if_pos rfl]

theorem lfsrStep_getLsbD_of_lt (s : Word32) {i : Nat} (hi : i < 31) : (lfsrStep s).getLsbD i = s.getLsbD (i + 1) := by
  rw [lfsrStep_getLsbD, if_neg hi.ne]

/-- The concatenation form of 41_step_function.md R72. -/
theorem lfsrStep_eq_append (s : Word32) :
    lfsrStep s = BitVec.ofBool (fb s) ++ (s.extractLsb' 1 31 : BitVec 31) := by
  apply BitVec.eq_of_getLsbD_eq
  intro i hi
  refine Eq.trans ?_ (BitVec.getLsbD_append (x := BitVec.ofBool (fb s)) (y := (s.extractLsb' 1 31 : BitVec 31))).symm
  by_cases h : i < 31
  · simp [lfsrStep_getLsbD_of_lt s h, h, Nat.add_comm]
  · obtain rfl : i = 31 := by omega
    rw [lfsrStep_getLsbD_31]
    simp

/-- Settles O10: the bits of `lfsrStep_getLsbD` and the concatenation they make. -/
theorem stepShiftsInFeedback : Obligations.StepShiftsInFeedback :=
  fun s => ⟨lfsrStep_getLsbD_31 s, fun _ => lfsrStep_getLsbD_of_lt s, lfsrStep_eq_append s⟩

end Sys2Proof.Machine
end

section
/-! SUPPORT. `step` permutes the 32-bit values (41_step_function.md R74, R75). -/

namespace Sys2Proof.Machine

@[simp] theorem lfsrStep_zero : lfsrStep 0#32 = 0#32 := by decide

theorem lfsrStep_injective : Function.Injective lfsrStep :=
  Function.LeftInverse.injective lfsrUnstep_lfsrStep

/-- An injective map of a finite type is onto, so the left inverse is a right inverse. -/
theorem lfsrStep_lfsrUnstep (n : Word32) : lfsrStep (lfsrUnstep n) = n :=
  Function.LeftInverse.rightInverse_of_surjective lfsrUnstep_lfsrStep
    (Finite.surjective_of_injective lfsrStep_injective) n

/-- Every stream is purely periodic (41_step_function.md R75 (b)). -/
theorem mem_periodicPts_lfsrStep (s : Word32) : s ∈ Function.periodicPts lfsrStep :=
  lfsrStep_injective.mem_periodicPts s

/-- Two streams from different seeds never meet (41_step_function.md R75 (c)). -/
theorem lfsrStep_iterate_ne {s s' : Word32} (k : Nat) (h : s ≠ s') : lfsrStep^[k] s ≠ lfsrStep^[k] s' :=
  (lfsrStep_injective.iterate k).ne h

/-- Settles O11: `unstep` inverts `step` on both sides, so iterates of `step` are injective and zero, a fixed point, is reached
from zero only. -/
theorem stepIsABijection : Obligations.StepIsABijection := by
  refine ⟨lfsrStep_zero, fun s => ⟨lfsrUnstep_lfsrStep s, lfsrStep_lfsrUnstep s⟩, fun n => ⟨?_, fun i hi => ?_⟩,
    fun s k hs => ?_, mem_periodicPts_lfsrStep, fun s s' k => lfsrStep_iterate_ne k⟩
  · rw [lfsrUnstep_getLsbD n 0 (by decide), if_pos rfl]
  · rw [lfsrUnstep_getLsbD n (i + 1) (by omega), if_neg i.succ_ne_zero, Nat.add_sub_cancel]
  · have hfixed : lfsrStep^[k] 0#32 = 0#32 := Function.iterate_fixed lfsrStep_zero k
    simpa only [hfixed] using lfsrStep_iterate_ne k hs

end Sys2Proof.Machine
end

section
/-! SUPPORT. `step` is linear over XOR, and the bits that leave the register satisfy a recurrence (41_step_function.md R76). -/

namespace Sys2Proof.Machine

theorem fb_xor (x y : Word32) : fb (x ^^^ y) = (fb x ^^ fb y) := by
  simp only [fb_eq_xor_taps, BitVec.getLsbD_xor, Bool.xor_assoc, Bool.xor_left_comm]

theorem lfsrStep_xor (x y : Word32) : lfsrStep (x ^^^ y) = lfsrStep x ^^^ lfsrStep y := by
  apply BitVec.eq_of_getLsbD_eq
  intro i _
  rw [BitVec.getLsbD_xor]
  simp only [lfsrStep_getLsbD]
  by_cases h : i = 31
  · simp only [if_pos h, fb_xor]
  · simp only [if_neg h, BitVec.getLsbD_xor]

/-- The register is a window on the bits that leave it: bit `i` leaves after `i` more steps. -/
theorem lfsrStep_iterate_getLsbD (s : Word32) {i : Nat} (hi : i < 32) :
    ∀ n, (lfsrStep^[n] s).getLsbD i = (lfsrStep^[n + i] s).getLsbD 0 := by
  induction i with
  | zero => exact fun n => rfl
  | succ i ih =>
    intro n
    rw [← lfsrStep_getLsbD_of_lt _ (by omega), ← Function.iterate_succ_apply' lfsrStep, ih (by omega),
      Nat.succ_add_eq_add_succ]

/-- Settles O12: linearity bit by bit, the window (`lfsrStep_iterate_getLsbD`), and the recurrence as the feedback bit of the
window. -/
theorem stepIsLinearWithRecurrence : Obligations.StepIsLinearWithRecurrence := by
  refine ⟨lfsrStep_xor, fun s u hu => ?_⟩
  have hwindow : ∀ n i, i < 32 → (lfsrStep^[n] s).getLsbD i = u (n + i) := fun n i hi =>
    (lfsrStep_iterate_getLsbD s hi n).trans (hu (n + i)).symm
  refine ⟨hwindow, fun n => ?_⟩
  calc u (n + 32) = (lfsrStep^[n + 1] s).getLsbD 31 := by rw [hwindow _ _ (by decide)]
    _ = fb (lfsrStep^[n] s) := by rw [Function.iterate_succ_apply', lfsrStep_getLsbD_31]
    _ = (u (n + 31) ^^ u (n + 21) ^^ u (n + 1) ^^ u n) := by
      rw [fb_eq_xor_taps, hwindow n 31 (by decide), hwindow n 21 (by decide), hwindow n 1 (by decide),
        ← hu n]

end Sys2Proof.Machine
end

section
/-! SUPPORT. Many steps at once. Since `step` is linear, and every value is a combination of the iterates of bit 31, the word
that `n` steps make of bit 31 determines `n` steps from any value. So long runs are evaluated by repeated squaring, on one word
in place of a 32 by 32 matrix. -/

namespace Sys2Proof.Machine

/-- The value with bit 31 alone. -/
def topBit : Word32 := 0x80000000#32

/-- The tap at bit `i`, by the taps of 41_step_function.md R70. -/
def isTap (i : Nat) : Bool := [tap3, tap2, tap1, tap0].contains i

/-- XOR of the columns `0` to `i` at the set bits of `w`. Column `i` is `c`, and the column below any column is its `step`,
with `v` added where the column stands at a tap. -/
def combine (v w : Word32) : Nat → Word32 → Word32
  | 0, c => bif w.getLsbD 0 then c else 0#32
  | i + 1, c =>
    (bif w.getLsbD (i + 1) then c else 0#32) ^^^
      combine v w i (lfsrStep c ^^^ bif isTap (i + 1) then v else 0#32)

/-- The value at `w` of the linear map that commutes with `step` and takes `topBit` to `v`. -/
def spread (v w : Word32) : Word32 := combine v w 31 v

theorem lfsrStep_cond (b : Bool) (x : Word32) : lfsrStep (bif b then x else 0#32) = bif b then lfsrStep x else 0#32 := by
  cases b
  · exact lfsrStep_zero
  · rfl

theorem lfsrStep_combine (v w : Word32) (i : Nat) :
    ∀ c, lfsrStep (combine v w i c) = combine (lfsrStep v) w i (lfsrStep c) := by
  induction i with
  | zero => exact fun c => lfsrStep_cond _ c
  | succ i ih =>
    intro c
    simp only [combine, lfsrStep_xor, lfsrStep_cond, ih]

/-- The columns of `topBit` are the single bits: `step` moves bit `i + 1` down, and feeds it back at a tap. -/
theorem lfsrStep_twoPow :
    ∀ i < 31, (lfsrStep (BitVec.twoPow 32 (i + 1)) ^^^ bif isTap (i + 1) then topBit else 0#32) = BitVec.twoPow 32 i := by
  decide

theorem cond_twoPow_getLsbD (b : Bool) {i : Nat} (hi : i < 32) (j : Nat) :
    (bif b then BitVec.twoPow 32 i else 0#32).getLsbD j = (b && decide (j = i)) := by
  cases b
  · simp
  · simp [BitVec.getLsbD_twoPow, hi, eq_comm]

/-- With the single bits as columns, the set bits of `w` come back. -/
theorem combine_topBit_getLsbD (w : Word32) {i : Nat} (hi : i < 32) (j : Nat) :
    (combine topBit w i (BitVec.twoPow 32 i)).getLsbD j = (decide (j ≤ i) && w.getLsbD j) := by
  induction i with
  | zero =>
    rw [combine, cond_twoPow_getLsbD _ hi]
    by_cases h : j = 0 <;> simp [h]
  | succ i ih =>
    rw [combine, lfsrStep_twoPow i (by omega), BitVec.getLsbD_xor, cond_twoPow_getLsbD _ hi, ih (by omega)]
    by_cases h : j = i + 1
    · simp [h]
    · have hle : j ≤ i + 1 ↔ j ≤ i := by omega
      simp [h, hle]

theorem spread_topBit (w : Word32) : spread topBit w = w := by
  apply BitVec.eq_of_getLsbD_eq
  intro j hj
  have h := combine_topBit_getLsbD w (i := 31) (by decide) j
  rwa [decide_eq_true (by omega), Bool.true_and] at h

/-- Where `n` steps take bit 31 tells where they take any value. -/
theorem spread_iterate_topBit (n : Nat) (w : Word32) : spread (lfsrStep^[n] topBit) w = lfsrStep^[n] w := by
  have hcomm : Function.Semiconj (spread · w) lfsrStep lfsrStep := fun v => (lfsrStep_combine v w 31 v).symm
  calc spread (lfsrStep^[n] topBit) w = lfsrStep^[n] (spread topBit w) := hcomm.iterate_right n topBit
    _ = lfsrStep^[n] w := by rw [spread_topBit]

/-- `n` applications to `s` of the map with the value `v` at `topBit`, by the binary digits of `n`, lowest first; each digit
squares the map. -/
def jump : Nat → Word32 → Nat → Word32 → Word32
  | 0, _, _, s => s
  | digits + 1, v, n, s => jump digits (spread v v) (n / 2) (bif n.testBit 0 then spread v s else s)

theorem jump_iterate_topBit (digits : Nat) :
    ∀ {m n : Nat} {s : Word32}, n < 2 ^ digits → jump digits (lfsrStep^[m] topBit) n s = lfsrStep^[m * n] s := by
  induction digits with
  | zero =>
    intro m n s hn
    obtain rfl : n = 0 := by omega
    rfl
  | succ digits ih =>
    intro m n s hn
    have hdigit : (bif n.testBit 0 then lfsrStep^[m] s else s) = lfsrStep^[m * (n % 2)] s := by
      rcases Nat.mod_two_eq_zero_or_one n with h | h <;> simp [Nat.testBit_zero, h]
    have hsum : (m + m) * (n / 2) + m * (n % 2) = m * n := by
      rw [← Nat.two_mul, Nat.mul_comm 2, Nat.mul_assoc, ← Nat.mul_add, Nat.div_add_mod]
    rw [jump, spread_iterate_topBit, spread_iterate_topBit, ← Function.iterate_add_apply, ih (by omega), hdigit,
      ← Function.iterate_add_apply, hsum]

/-- Fewer than 2^32 steps in 32 squarings. -/
theorem iterate_eq_jump {n : Nat} (hn : n < 2 ^ 32) (s : Word32) : lfsrStep^[n] s = jump 32 (lfsrStep topBit) n s := by
  simpa using (jump_iterate_topBit 32 (m := 1) (s := s) hn).symm

end Sys2Proof.Machine
end

section
/-! SUPPORT. Facts about the periods of any map: how a period is certified, and when cycles cover a finite type. -/

namespace Sys2Proof.Machine

open Function (minimalPeriod)

variable {α : Type} {f : α → α} {x : α}

/-- A number of steps that leads back is the least one when none of its quotients by a prime does. -/
theorem minimalPeriod_eq_of_prime_quotients {n : Nat} (hx : f^[n] x = x)
    (hne : ∀ p, p.Prime → p ∣ n → f^[n / p] x ≠ x) : minimalPeriod f x = n := by
  obtain ⟨k, hk⟩ : minimalPeriod f x ∣ n := Function.IsPeriodicPt.minimalPeriod_dvd hx
  by_contra hlt
  have hk1 : k ≠ 1 := by
    rintro rfl
    exact hlt (by rw [hk, Nat.mul_one])
  obtain ⟨p, hp, l, rfl⟩ := Nat.exists_prime_and_dvd hk1
  have hquot : n / p = minimalPeriod f x * l := by
    rw [hk, Nat.mul_left_comm, Nat.mul_div_cancel_left _ hp.pos]
  exact hne p hp ⟨_, by rw [hk, Nat.mul_left_comm]⟩
    (hquot ▸ (Function.isPeriodicPt_minimalPeriod f x).mul_const l)

variable {ι : Type} {member : ι → α}

/-- Once around the cycle of every member. -/
def walk (f : α → α) (member : ι → α) (t : Σ i, Fin (minimalPeriod f (member i))) : α := f^[t.2] (member t.1)

/-- The values on a cycle have its length as their period, so cycles of different lengths are disjoint. -/
theorem walk_injective (hper : ∀ y, y ∈ Function.periodicPts f)
    (hne : Function.Injective fun i => minimalPeriod f (member i)) : (walk f member).Injective := by
  rintro ⟨i, j⟩ ⟨i', j'⟩ (h : f^[j] (member i) = f^[j'] (member i'))
  obtain rfl : i = i' := hne <| by
    simpa only [Function.minimalPeriod_apply_iterate (hper _)] using congrArg (minimalPeriod f) h
  obtain rfl : j = j' := Fin.ext ((Function.iterate_eq_iterate_iff_of_lt_minimalPeriod j.isLt j'.isLt).mp h)
  rfl

/-- Cycles of different lengths that add up to the number of all values cover them. -/
theorem exists_iterate_eq_of_sum_minimalPeriod [Fintype ι] [Fintype α] (hper : ∀ y, y ∈ Function.periodicPts f)
    (hne : Function.Injective fun i => minimalPeriod f (member i))
    (hsum : ∑ i, minimalPeriod f (member i) = Fintype.card α) (y : α) :
    ∃ i, ∃ j < minimalPeriod f (member i), y = f^[j] (member i) := by
  have hcard : Fintype.card (Σ i, Fin (minimalPeriod f (member i))) = Fintype.card α := by simpa using hsum
  obtain ⟨⟨i, j⟩, hy⟩ :=
    ((Fintype.bijective_iff_injective_and_card (walk f member)).mpr ⟨walk_injective hper hne, hcard⟩).surjective y
  exact ⟨i, j, j.isLt, hy.symm⟩

end Sys2Proof.Machine
end

section
/-! SUPPORT. The cycles of `step` (41_step_function.md R78). -/

namespace Sys2Proof.Machine

open Function (minimalPeriod)

/-- Every stream returns to its seed, so its period is the least number of steps that does. -/
theorem isPeriod_minimalPeriod (s : Word32) : IsPeriod s (minimalPeriod lfsrStep s) :=
  ⟨Function.minimalPeriod_pos_of_mem_periodicPts (mem_periodicPts_lfsrStep s), Function.iterate_minimalPeriod,
    fun _ hpos => Function.not_isPeriodicPt_of_pos_of_lt_minimalPeriod hpos.ne'⟩

/-- A number of steps that leads back to 1 leads back to every value. -/
theorem iterate_eq_of_iterate_one {n : Nat} (h : lfsrStep^[n] 1#32 = 1#32) (s : Word32) : lfsrStep^[n] s = s := by
  have htop : lfsrStep^[n] topBit = topBit := by
    have hstep : lfsrStep 1#32 = topBit := by decide
    rw [← hstep, ← Function.iterate_succ_apply lfsrStep, Function.iterate_succ_apply', h]
  rw [← spread_iterate_topBit, htop, spread_topBit]

theorem minimalPeriod_dvd_minimalPeriod_one (s : Word32) : minimalPeriod lfsrStep s ∣ minimalPeriod lfsrStep 1#32 :=
  Function.IsPeriodicPt.minimalPeriod_dvd (iterate_eq_of_iterate_one Function.iterate_minimalPeriod s)

/-- What `step` makes of bit 31 in 536870911 = 2^29 - 1 steps, the length of the middle cycle. -/
def middleWord : Word32 := 0x172E5CB9#32

/-- The one long run of the model; the longer ones are repetitions of it. -/
theorem iterate_536870911 : lfsrStep^[536870911] = spread middleWord := by
  have htop : lfsrStep^[536870911] topBit = middleWord := by
    rw [iterate_eq_jump (by decide)]
    decide +kernel
  funext s
  rw [← spread_iterate_topBit, htop]

/-- The factors of 2^29 - 1. -/
theorem prime_dvd_536870911 {p : Nat} (hp : p.Prime) (h : p ∣ 536870911) : p = 233 ∨ p = 1103 ∨ p = 2089 := by
  rw [show 536870911 = 233 * 1103 * 2089 from rfl, hp.dvd_mul, hp.dvd_mul, Nat.prime_dvd_prime_iff_eq hp (by norm_num),
    Nat.prime_dvd_prime_iff_eq hp (by norm_num), Nat.prime_dvd_prime_iff_eq hp (by norm_num), or_assoc] at h
  exact h

theorem minimalPeriod_zero : minimalPeriod lfsrStep 0#32 = 1 :=
  Function.minimalPeriod_eq_one_iff_isFixedPt.mpr lfsrStep_zero

theorem minimalPeriod_short : minimalPeriod lfsrStep 0x972E5CB9#32 = 7 := by
  refine minimalPeriod_eq_of_prime_quotients (by decide) fun p hp hdvd => ?_
  obtain rfl := (Nat.prime_dvd_prime_iff_eq hp (by norm_num)).mp hdvd
  decide

/-- The prime factors 233, 1103 and 2089 of 536870911 are tried one by one. -/
theorem minimalPeriod_middle : minimalPeriod lfsrStep 0x20000001#32 = 536870911 := by
  refine minimalPeriod_eq_of_prime_quotients ?_ fun p hp hdvd => ?_
  · rw [iterate_536870911]
    decide +kernel
  · rcases prime_dvd_536870911 hp hdvd with rfl | rfl | rfl
    all_goals
      rw [iterate_eq_jump (by decide)]
      decide +kernel

/-- The period of 1 is a multiple of those of the short and the middle cycle, and 7 * 536870911 steps lead back. -/
theorem minimalPeriod_long : minimalPeriod lfsrStep 1#32 = 3758096377 := by
  apply Nat.dvd_antisymm
  · refine Function.IsPeriodicPt.minimalPeriod_dvd (?_ : lfsrStep^[536870911 * 7] 1#32 = 1#32)
    rw [Function.iterate_mul, iterate_536870911]
    decide +kernel
  · exact Nat.Coprime.mul_dvd_of_dvd_of_dvd (by norm_num : Nat.Coprime 7 536870911)
      (minimalPeriod_short ▸ minimalPeriod_dvd_minimalPeriod_one _)
      (minimalPeriod_middle ▸ minimalPeriod_dvd_minimalPeriod_one _)

/-- Settles O13, by running the model. -/
theorem shortCycleMembers : Obligations.ShortCycleMembers := by
  unfold Obligations.ShortCycleMembers
  decide

/-- Settles O14: 2^32 - 1 is 7 + 8 * 536870911. -/
theorem claimedPeriodFails : Obligations.ClaimedPeriodFails := by
  intro n hn
  obtain rfl : n = 536870911 * 8 + 7 := by omega
  rw [Function.iterate_add_apply, Function.iterate_mul, iterate_536870911]
  decide +kernel

/-- A member of each cycle, by the table of 41_step_function.md R78. -/
def cycleMember : Fin 4 → Word32 := ![0x00000000#32, 0x972E5CB9#32, 0x20000001#32, 0x00000001#32]

/-- The lengths of the cycles in the same table. -/
def cycleLength : Fin 4 → Nat := ![1, 7, 536870911, 3758096377]

theorem minimalPeriod_cycleMember : ∀ i, minimalPeriod lfsrStep (cycleMember i) = cycleLength i
  | 0 => minimalPeriod_zero
  | 1 => minimalPeriod_short
  | 2 => minimalPeriod_middle
  | 3 => minimalPeriod_long

theorem isPeriod_cycleMember (i : Fin 4) : IsPeriod (cycleMember i) (cycleLength i) :=
  minimalPeriod_cycleMember i ▸ isPeriod_minimalPeriod (cycleMember i)

theorem cycleLength_injective : Function.Injective cycleLength := by decide

theorem sum_cycleLength : ∑ i, cycleLength i = Fintype.card Word32 := by
  rw [FinEnum.card_eq_fintypeCard.symm, FinEnum.card_bitVec]
  decide

/-- Every value is on the cycle of one of the four members. -/
theorem exists_cycleMember (s : Word32) : ∃ i, ∃ j < cycleLength i, s = lfsrStep^[j] (cycleMember i) := by
  simp only [← minimalPeriod_cycleMember]
  refine exists_iterate_eq_of_sum_minimalPeriod mem_periodicPts_lfsrStep ?_ ?_ s
  · simpa only [minimalPeriod_cycleMember] using cycleLength_injective
  · simpa only [minimalPeriod_cycleMember] using sum_cycleLength

/-- Settles O15: the periods of the four members, and the count that leaves no value over (`exists_cycleMember`). -/
theorem stepHasExactlyFourCycles : Obligations.StepHasExactlyFourCycles := by
  refine ⟨isPeriod_cycleMember 0, isPeriod_cycleMember 1, isPeriod_cycleMember 2, isPeriod_cycleMember 3, fun s => ?_⟩
  obtain ⟨i, j, hj, hs⟩ := exists_cycleMember s
  match i with
  | 0 => exact .inl (hs.trans (Function.iterate_fixed lfsrStep_zero j))
  | 1 => exact .inr (.inl ⟨j, hj, hs⟩)
  | 2 => exact .inr (.inr (.inl ⟨j, hj, hs⟩))
  | 3 => exact .inr (.inr (.inr ⟨j, hj, hs⟩))

end Sys2Proof.Machine
end

section
/-! SUPPORT. NEXT: its result and its frame, and its equality with RAND over the default range (42_next.md R81, R82). -/

namespace Sys2Proof.Machine

/-- Settles O18: the engine selects between advancing it and raising NOT_SEEDED, which writes the response only; the new
register value is not zero where the old one was not (`lfsrStep_ne_zero`). -/
theorem nextAdvancesAndReturnsNewState : Obligations.NextAdvancesAndReturnsNewState := by
  intro a b s
  refine ⟨encode_next a b, fun x he => ⟨exec_next_of_some a b he, fun hx => ?_⟩,
    fun he => (exec_next_of_none a b he).trans (raise_eq s .notSeeded)⟩
  have hpos : (lfsrStep x).toNat ≠ 0 := BitVec.toNat_ne_iff_ne.mpr (lfsrStep_ne_zero hx)
  have hlt := (lfsrStep x).isLt
  omega

/-- A range of at least 2^32 values does not reduce the register value (43_random_int.md R93). -/
theorem mapRange_of_wide (raw : Word32) {min max : Int} (h : 2 ^ 32 ≤ rangeSize min max) :
    mapRange raw min max = min + raw.toNat := by
  have hlt : (raw.toNat : Int) < rangeSize min max := by have := raw.isLt; omega
  rw [mapRange, Int.emod_eq_of_lt (Int.natCast_nonneg _) hlt]

/-- The data word that holds a register value as an integer is its zero extension. -/
theorem enc64_toNat (x : Word32) : enc64 (x.toNat : Int) = zext64 x := by
  rw [enc64, BitVec.ofInt_natCast, zext64, BitVec.ofNat_toNat]

/-- NEXT is RAND from 0 to any bound that leaves the register value as it is: without an engine both raise NOT_SEEDED, and
with one the range mapper is the identity (`mapRange_of_wide`). -/
theorem exec_next_eq_exec_rand_of_wide (a b : Word64) {c : Word64} (s : State) (hc : 0xFFFFFFFF ≤ c.toInt) :
    exec (.next a b) s = exec (.rand 0#64 c) s := by
  cases he : s.engine with
  | none => rw [exec_next_of_none a b he, exec_rand_of_none 0#64 c he]
  | some x =>
    have hmin : minOf 0#64 = 0 := by decide
    have hordered : invertedRange 0#64 c = false := by
      rw [invertedRange_eq_false, BitVec.toInt_zero]; omega
    have hwide : 2 ^ 32 ≤ rangeSize 0 (maxOf c) := by
      unfold rangeSize maxOf sint; omega
    rw [exec_next_of_some a b he, exec_rand_of_some he hordered, hmin, mapRange_of_wide _ hwide, Int.zero_add,
      enc64_toNat]

/-- Settles O21: the default range is the least of the ranges of `exec_next_eq_exec_rand_of_wide`. -/
theorem nextIsRandWithDefaultRange : Obligations.NextIsRandWithDefaultRange :=
  fun a b s => ⟨exec_next_eq_exec_rand_of_wide a b s (by decide), fun _ => exec_next_eq_exec_rand_of_wide a b s⟩

end Sys2Proof.Machine
end

section
/-! SUPPORT. The range mapper on integers (43_random_int.md R92, R93). -/

namespace Sys2Proof.Machine

variable {min max : Int}

/-- Bounds in order make a range of at least one value, so the remainder is defined (43_random_int.md R93). -/
theorem rangeSize_pos (h : min ≤ max) : 0 < rangeSize min max := by
  unfold rangeSize; omega

/-- The remainder lies in [0, range_size - 1] (43_random_int.md R93). -/
theorem emod_rangeSize_mem_Ico (raw : Word32) (h : min ≤ max) :
    (raw.toNat : Int) % rangeSize min max ∈ Set.Ico 0 (rangeSize min max) :=
  ⟨Int.emod_nonneg _ (rangeSize_pos h).ne', Int.emod_lt_of_pos _ (rangeSize_pos h)⟩

/-- The remainder is at most the register value: with a positive range size it is one of natural numbers. -/
theorem emod_rangeSize_le (raw : Word32) (h : min ≤ max) : (raw.toNat : Int) % rangeSize min max ≤ raw.toNat := by
  obtain ⟨n, hn⟩ := Int.eq_ofNat_of_zero_le (rangeSize_pos h).le
  rw [hn]
  exact_mod_cast Nat.mod_le raw.toNat n

/-- A register value below the range size is not reduced (43_random_int.md R93). -/
theorem mapRange_of_lt {raw : Word32} (h : (raw.toNat : Int) < rangeSize min max) :
    mapRange raw min max = min + raw.toNat := by
  rw [mapRange, Int.emod_eq_of_lt (Int.natCast_nonneg _) h]

/-- The range mapper stays between its bounds: the remainder is at least 0 and below the range size. -/
theorem mapRange_mem_Icc (raw : Word32) (h : min ≤ max) : mapRange raw min max ∈ Set.Icc min max := by
  obtain ⟨hnonneg, hlt⟩ := emod_rangeSize_mem_Ico raw h
  rw [mapRange, Set.mem_Icc]
  unfold rangeSize at *
  omega

/-- The range mapper between signed 64-bit bounds is read back from its 64-bit vector (43_random_int.md R93). -/
theorem toInt_enc64_mapRange (raw : Word32) (hlo : -2 ^ 63 ≤ min) (hhi : max < 2 ^ 63) (h : min ≤ max) :
    (enc64 (mapRange raw min max)).toInt = mapRange raw min max := by
  obtain ⟨hmin, hmax⟩ := mapRange_mem_Icc raw h
  exact toInt_enc64 (hlo.trans hmin) (hmax.trans_lt hhi)

/-- `toInt_enc64_mapRange` for bounds that are operand fields, which are signed 64-bit values of themselves. -/
theorem toInt_enc64_mapRange_toInt (raw : Word32) {a b : Word64} (h : a.toInt ≤ b.toInt) :
    (enc64 (mapRange raw a.toInt b.toInt)).toInt = mapRange raw a.toInt b.toInt :=
  toInt_enc64_mapRange raw a.le_toInt b.toInt_lt h

/-- Settles O23: the range size is positive (`rangeSize_pos`), which bounds the remainder (`emod_rangeSize_mem_Ico`,
`emod_rangeSize_le`) and with it the result (`mapRange_mem_Icc`, `toInt_enc64_mapRange`); a register value below the
range size is its own remainder (`mapRange_of_lt`, `mapRange_of_wide`). -/
theorem rangeMapperLaws : Obligations.RangeMapperLaws := by
  intro raw min max hlo hhi h
  obtain ⟨hnonneg, hlt⟩ := emod_rangeSize_mem_Ico raw h
  have hsize : rangeSize min max ≤ 2 ^ 64 := by unfold rangeSize; omega
  exact ⟨⟨rangeSize_pos h, hsize⟩, ⟨hnonneg, emod_rangeSize_le raw h, Int.le_sub_one_of_lt hlt⟩, rfl,
    mapRange_mem_Icc raw h, toInt_enc64_mapRange raw hlo hhi h, mapRange_of_lt, mapRange_of_wide raw⟩

end Sys2Proof.Machine
end

section
/-! SUPPORT. The fixed-width datapath computes the range mapper (43_random_int.md R94). -/

namespace Sys2Proof.Machine

variable {a b : Word64}

/-- The subtractor does not wrap: `span` is `max - min` as an unsigned value (43_random_int.md R94). -/
theorem toNat_sub_of_toInt_le (h : a.toInt ≤ b.toInt) : ((b - a).toNat : Int) = b.toInt - a.toInt := by
  rw [BitVec.toInt_eq_toNat_cond, BitVec.toInt_eq_toNat_cond] at h ⊢
  bv_omega

/-- The divisor `m` is `span + 1` where `span` is below 0xFFFFFFFF: neither the truncation nor the increment wraps. -/
theorem divisor_toNat {span : Word64} (h : span.toNat < 0xFFFFFFFF) :
    (span.extractLsb' 0 32 + 1#32 : Word32).toNat = span.toNat + 1 := by
  rw [BitVec.toNat_add, BitVec.extractLsb'_toNat, Nat.shiftRight_zero, BitVec.toNat_ofNat]
  omega

/-- The divisor `m` is the range size where it is used (43_random_int.md R94). -/
theorem divisor_eq_rangeSize (h : a.toInt ≤ b.toInt) (hspan : (b - a).toNat < 0xFFFFFFFF) :
    (((b - a).extractLsb' 0 32 + 1#32 : Word32).toNat : Int) = rangeSize a.toInt b.toInt := by
  rw [divisor_toNat hspan, Nat.cast_succ, toNat_sub_of_toInt_le h, rangeSize]

/-- The last adder computes the vector of the integer sum. -/
theorem add_zext64_eq_enc64 (a : Word64) (off : Word32) : a + zext64 off = enc64 (a.toInt + off.toNat) := by
  rw [← enc64_toNat, enc64, enc64, BitVec.ofInt_add, BitVec.ofInt_toInt]

/-- Both ways of the multiplexer give the remainder by the range size: a span of at least 0xFFFFFFFF leaves the register
value as it is, and a smaller one divides by the range size. -/
theorem mapDatapath_eq_enc64_mapRange (raw : Word32) (h : a.toInt ≤ b.toInt) :
    mapDatapath raw a b = enc64 (mapRange raw a.toInt b.toInt) := by
  have hspan := toNat_sub_of_toInt_le h
  refine (add_zext64_eq_enc64 a _).trans ?_
  split
  next hwide =>
    have hsize : 2 ^ 32 ≤ rangeSize a.toInt b.toInt := by unfold rangeSize; omega
    rw [mapRange_of_wide raw hsize]
  next hnarrow =>
    rw [BitVec.toNat_umod, Int.natCast_emod, divisor_eq_rangeSize h (Nat.lt_of_not_le hnarrow), mapRange]

/-- Settles O24: the subtractor does not wrap (`toNat_sub_of_toInt_le`), so the divisor is the range size
(`divisor_eq_rangeSize`) and the datapath the vector of the range mapper, which is read back without overflow. -/
theorem datapathComputesRangeMapper : Obligations.DatapathComputesRangeMapper := by
  intro raw a b h
  have hmap := mapDatapath_eq_enc64_mapRange raw h
  refine ⟨hmap, toNat_sub_of_toInt_le h, fun hspan => ⟨divisor_eq_rangeSize h hspan, ?_⟩, ?_⟩
  · rw [divisor_toNat hspan]
    exact Nat.le_add_left 1 _
  · rw [hmap]
    exact toInt_enc64_mapRange_toInt raw h

end Sys2Proof.Machine
end

section
/-! SUPPORT. RAND: its result, its errors and its frame (43_random_int.md R91, R95), that its samples lie in the range (R93),
and the ranges of one value and of a power of two (R96, R99). -/

namespace Sys2Proof.Machine

/-- Settles O19: the engine and the comparator select between sampling and the two errors, which write the response only. -/
theorem randSamplesTheRange : Obligations.RandSamplesTheRange := by
  intro a b s
  refine ⟨encode_rand a b, fun x he h => ?_, fun x he h => ?_, fun he => ?_⟩
  · exact exec_rand_of_some he (invertedRange_eq_false.mpr h)
  · exact (exec_rand_of_inverted he (invertedRange_eq_true.mpr h)).trans (raise_eq s .invalidRange)
  · exact (exec_rand_of_none a b he).trans (raise_eq s .notSeeded)

/-- Settles O22: a one-value range has size 1, and every remainder by 1 is 0. -/
theorem oneValueRangeStillAdvances : Obligations.OneValueRangeStillAdvances := by
  intro a s x he
  obtain ⟨-, hok, -⟩ := randSamplesTheRange a a s
  rw [hok x he le_rfl, Int.sub_self, Int.zero_add, Int.emod_one, Int.add_zero, BitVec.ofInt_toInt]

/-- Settles O25: of all that RAND can do only the sample answers OK, and the sample is the vector of a value of the range
mapper, which lies between the bounds. -/
theorem randSampleLiesInRange : Obligations.RandSampleLiesInRange := by
  intro a b d s t h hrsp
  obtain ⟨-, rfl⟩ | ⟨-, -, rfl⟩ | ⟨x, -, hordered, rfl⟩ := exec_rand_cases h
  · cases hrsp
  · cases hrsp
  · have hle := invertedRange_eq_false.mp hordered
    cases hrsp
    have hread := toInt_enc64_mapRange_toInt (lfsrStep x) hle
    exact hread.symm ▸ mapRange_mem_Icc (lfsrStep x) hle

/-- The low two bits of the new register are bits 2:1 of the old one (41_step_function.md R72). -/
theorem lfsrStep_extract_low_two (x : Word32) : (lfsrStep x).extractLsb' 0 2 = x.extractLsb' 1 2 := by
  apply BitVec.eq_of_getLsbD_eq
  intro i hi
  rw [BitVec.getLsbD_extractLsb', BitVec.getLsbD_extractLsb', Nat.zero_add,
    lfsrStep_getLsbD_of_lt x (by omega), Nat.add_comm]

/-- The remainder by 4 of the new register, as a data word, is bits 2:1 of the old one. -/
theorem ofInt_lfsrStep_mod_four (x : Word32) :
    BitVec.ofInt 64 (((lfsrStep x).toNat % 2 ^ 2 : Nat) : Int) = (x.extractLsb' 1 2).setWidth 64 := by
  rw [← lfsrStep_extract_low_two, BitVec.ofInt_natCast, ← BitVec.ofNat_toNat, BitVec.extractLsb'_toNat,
    Nat.shiftRight_zero]

/-- Settles O26: the range size is the cast of a power of two, so the remainder is one of natural numbers; RAND 0, 3 is the
case of two bits, which the step has shifted down by one (`ofInt_lfsrStep_mod_four`). -/
theorem powerOfTwoRangeTakesLowBits : Obligations.PowerOfTwoRangeTakesLowBits := by
  intro s x he
  have hpow : ∀ (a b : Word64) (k : Nat), b.toInt - a.toInt + 1 = 2 ^ k →
      exec (.rand a b) s = .next { s with engine := some (lfsrStep x), rsp := some ⟨.ok, BitVec.ofInt 64
        (a.toInt + ((lfsrStep x).toNat % 2 ^ k : Nat))⟩ } := by
    intro a b k hk
    obtain ⟨-, hok, -⟩ := randSamplesTheRange a b s
    have hle : a.toInt ≤ b.toInt := by
      have : (0 : Int) < 2 ^ k := by positivity
      omega
    rw [hok x he hle, hk]
    norm_cast
  refine ⟨fun a b k _ => hpow a b k, ?_⟩
  rw [hpow 0#64 3#64 2 (by decide), BitVec.toInt_zero, Int.zero_add, ofInt_lfsrStep_mod_four]

end Sys2Proof.Machine
end

section
/-! SUPPORT. Errors: the status of a command by the order of tests, what an error leaves unchanged, and the causes of each
error (60_exceptions.md R111 to R118). -/

namespace Sys2Proof.Machine

variable {i : Instr} {s t : State} {r : Response}

/-- The order of tests for a decoded command (60_exceptions.md R117): `priorityStatus` on the fields of its word. -/
def statusOf (i : Instr) (seeded : Bool) : Status := priorityStatus i.opcode i.fieldA i.fieldB seeded

theorem statusOf_seed (a b : Word64) (seeded : Bool) :
    statusOf (.seed a b) seeded = if a.extractLsb' 0 32 = 0#32 then .invalidSeed else .ok := rfl

theorem statusOf_next (a b : Word64) (seeded : Bool) :
    statusOf (.next a b) seeded = if seeded = false then .notSeeded else .ok := by
  simp [statusOf, priorityStatus, Instr.opcode]

theorem statusOf_rand (a b : Word64) (seeded : Bool) :
    statusOf (.rand a b) seeded =
      if seeded = false then .notSeeded else if b.toInt < a.toInt then .invalidRange else .ok := by
  simp [statusOf, priorityStatus, Instr.opcode, Instr.fieldA, Instr.fieldB]

theorem statusOf_reserved3 (a b : Word64) (seeded : Bool) : statusOf (.reserved3 a b) seeded = .illegalCmd := rfl

/-- The fields of a decoded command are those of its word. -/
theorem statusOf_decode (w : CmdWord) (seeded : Bool) :
    statusOf (decode w) seeded = priorityStatus (cmdOp w) (cmdA w) (cmdB w) seeded := by
  rw [statusOf, opcode_decode, fieldA_decode, fieldB_decode]

/-- The status a command answers is the first match in the order of tests. -/
theorem exec_status (h : exec i s = .next t) (hr : t.rsp = some r) : r.status = statusOf i s.engine.isSome := by
  cases i with
  | seed a b =>
    rw [statusOf_seed]
    rcases exec_seed_cases h with ⟨hz, rfl⟩ | ⟨hz, rfl⟩ <;> cases hr
    · rw [if_pos (zeroSeed_eq_true.mp hz)]
    · rw [if_neg (zeroSeed_eq_false.mp hz)]
  | next a b =>
    rw [statusOf_next]
    rcases exec_next_cases h with ⟨he, rfl⟩ | ⟨x, he, rfl⟩ <;> cases hr <;> simp [he]
  | rand a b =>
    rw [statusOf_rand]
    rcases exec_rand_cases h with ⟨he, rfl⟩ | ⟨he, hi, rfl⟩ | ⟨x, he, hi, rfl⟩ <;> cases hr
    · simp [he]
    · simp [he, invertedRange_eq_true.mp hi]
    · simp [he, invertedRange_eq_false.mp hi]
  | reserved3 a b =>
    obtain rfl := exec_reserved3_cases h
    cases hr
    rfl

/-- A command that ends in an error changes the response port only, and its data is 0 (60_exceptions.md R116). -/
theorem exec_eq_of_error (h : exec i s = .next t) (hr : t.rsp = some r) (herr : r.status ≠ .ok) :
    t = { s with rsp := some ⟨r.status, 0#64⟩ } := by
  cases i with
  | seed a b =>
    rcases exec_seed_cases h with ⟨-, rfl⟩ | ⟨-, rfl⟩ <;> cases hr
    · rfl
    · exact absurd rfl herr
  | next a b =>
    rcases exec_next_cases h with ⟨-, rfl⟩ | ⟨_, -, rfl⟩ <;> cases hr
    · rfl
    · exact absurd rfl herr
  | rand a b =>
    rcases exec_rand_cases h with ⟨-, rfl⟩ | ⟨-, -, rfl⟩ | ⟨_, -, -, rfl⟩ <;> cases hr
    · rfl
    · rfl
    · exact absurd rfl herr
  | reserved3 a b =>
    obtain rfl := exec_reserved3_cases h
    cases hr
    rfl

/-- Each error is the status of the commands its rule names, and of no others (60_exceptions.md R111 to R113;
30_encoding.md R48). -/
theorem statusOf_error_iff (i : Instr) (engine : Option Word32) :
    (statusOf i engine.isSome = .invalidSeed ↔ ∃ a b, i = .seed a b ∧ a.extractLsb' 0 32 = 0#32) ∧
    (statusOf i engine.isSome = .invalidRange ↔ ∃ a b, i = .rand a b ∧ engine ≠ none ∧ b.toInt < a.toInt) ∧
    (statusOf i engine.isSome = .notSeeded ↔ engine = none ∧ ∃ a b, i = .next a b ∨ i = .rand a b) ∧
    (statusOf i engine.isSome = .illegalCmd ↔ ∃ a b, i = .reserved3 a b) := by
  cases i with
  | seed a b => by_cases hz : a.extractLsb' 0 32 = 0#32 <;> simp [statusOf_seed, hz]
  | next a b => cases engine <;> simp [statusOf_next]
  | rand a b =>
    cases engine with
    | none => simp [statusOf_rand]
    | some x => by_cases hlt : b.toInt < a.toInt <;> simp [statusOf_rand, hlt]
  | reserved3 a b => simp [statusOf_reserved3]

/-- Settles O27: the status is that of the order of tests (`exec_status`), which gives each error to its cause only
(`statusOf_error_iff`), and an error changes the response port only (`exec_eq_of_error`). -/
theorem errorsHaveTheirCausesAndNoEffect : Obligations.ErrorsHaveTheirCausesAndNoEffect := by
  intro i s
  obtain ⟨t, r, h, hr⟩ := exec_next i s
  obtain ⟨hseed, hrange, hnone, hillegal⟩ := exec_status h hr ▸ statusOf_error_iff i s.engine
  exact ⟨t, r, h, hr, hseed, hrange, hnone, hillegal, exec_eq_of_error h hr⟩

/-- Settles O28: `exec_status` for a decoded word, whose fields are those of the word (`statusOf_decode`). -/
theorem statusFollowsPriorityOrder : Obligations.StatusFollowsPriorityOrder := by
  intro w s
  obtain ⟨t, r, h, hr⟩ := exec_next (decode w) s
  exact ⟨t, r, h, hr, (exec_status h hr).trans (statusOf_decode w _)⟩

/-- Settles O29, by induction on the words, for every state: the first one changes the response port only
(`exec_eq_of_error`), so the later ones have the same status and the same engine before them. -/
theorem errorsInARowLeaveTheEngine : Obligations.ErrorsInARowLeaveTheEngine := by
  intro ws rest
  induction ws with
  | nil => exact fun s hi _ => ⟨s, run_zero s, rfl, hi⟩
  | cons w ws ih =>
    intro s hi herr
    obtain ⟨hw, hws⟩ := List.forall_mem_cons.mp herr
    obtain ⟨u, r, hu, hr, hstatus⟩ := statusFollowsPriorityOrder w { s with inputs := ws.map .cmd ++ rest }
    have hframe := exec_eq_of_error hu hr (hstatus ▸ hw)
    have hstep : step s = .next u := (step_cmd hi).trans hu
    rw [List.length_cons, run_succ hstep, hframe]
    exact ih _ rfl hws

end Sys2Proof.Machine
end

section
/-! SUPPORT. Idle steps (60_exceptions.md R124, 70_reset_and_hazards.md R144). -/

namespace Sys2Proof.Machine

/-- Settles O41: both steps are `holdIdle` (`step_nil`, `step_idle`), which empties the response port. -/
theorem idleHoldsTheState : Obligations.IdleHoldsTheState := fun _ => ⟨step_nil, fun _ => step_idle⟩

end Sys2Proof.Machine
end

section
/-! SUPPORT. The atomic meaning of reset (70_reset_and_hazards.md R130) and a reset at the ports (R132). -/

namespace Sys2Proof.Machine

variable {c : Clocked} {p : Pins}

/-- Without an engine NEXT and RAND are NOT_SEEDED (60_exceptions.md R113). -/
theorem exec_of_none_of_sampling {i : Instr} {s : State} (hm : i.mnemonic = "NEXT" ∨ i.mnemonic = "RAND")
    (he : s.engine = none) : exec i s = raise .notSeeded s := by
  cases i with
  | seed a b => simp [Instr.mnemonic] at hm
  | next a b => exact exec_next_of_none a b he
  | rand a b => exact exec_rand_of_none a b he
  | reserved3 a b => simp [Instr.mnemonic] at hm

/-- Two steps of a run, where the first is known. -/
theorem run_two {s t : State} (h : step s = .next t) : Host.Core.run core 2 s = step t := by
  obtain ⟨u, hu⟩ := everyStepGoesOn t
  rw [run_succ h, run_succ hu, run_zero]
  exact hu.symm

/-- Settles O40: a reset step is `step_reset`, which forgets whatever engine and response stood before, so a second reset
finds nothing more to clear and a sample finds no engine (`exec_of_none_of_sampling`); at the ports it is `cycle_reset`. -/
theorem resetLeavesAnUnseededBlock : Obligations.ResetLeavesAnUnseededBlock := by
  refine ⟨fun s rest => step_reset, fun s rest hi => ?_, fun s w rest hi hm => ?_, fun c p => cycle_reset⟩
  · rw [run_two (step_reset hi), step_reset rfl, step_reset rfl]
    rfl
  · rw [run_two (step_reset hi), step_cmd rfl, exec_of_none_of_sampling hm rfl]
    rfl

theorem event_reset (h : p.rst = true) : c.event p = some .reset := by
  simp [Clocked.event, cycleKind, h]

/-- Settles O51: a cycle with `rst = 1` does not look at the command in flight (`cycle_reset`). -/
theorem resetAbandonsCommandInFlight : Obligations.ResetAbandonsCommandInFlight := by
  intro p c f h _
  refine ⟨?_, event_reset h, ?_⟩
  · rw [cycle_reset h]
  · rw [cycle_reset h, cycle_reset h]

end Sys2Proof.Machine
end

section
/-! SUPPORT. When the block is ready for a command (70_reset_and_hazards.md R133). -/

namespace Sys2Proof.Machine

variable {c : Clocked} {p : Pins}

/-- From acceptance until the response, and in a later response's own cycle, no command is accepted (R133(b)). -/
theorem cmdReady_of_inFlight {f : InFlight} (hf : c.inFlight = some f) : (c.cycle p).1.cmdReady = false := by
  cases hrst : p.rst with
  | true => rw [cycle_reset hrst]
  | false =>
    cases hl : f.left with
    | zero => rw [cycle_responding hrst hf hl]
    | succ n => rw [cycle_busy hrst hf hl]

/-- With nothing in flight only a reset keeps the block from being ready. -/
theorem cmdReady_of_idle (hf : c.inFlight = none) (hrst : p.rst = false) : (c.cycle p).1.cmdReady = true := by
  cases hv : p.cmdValid with
  | false => rw [cycle_quiet hrst hf hv]
  | true =>
    cases hl : c.latencyNow p with
    | zero => rw [cycle_acceptResponding hrst hf hv hl]
    | succ n => rw [cycle_accepting hrst hf hv hl]

/-- A response ends the command: a reset, a wait, an acceptance and a quiet cycle give none, and the two cycles that give one
leave nothing in flight. -/
theorem inFlight_of_rsp (h : (c.cycle p).1.rsp ≠ none) : (c.cycle p).2.inFlight = none := by
  cases hrst : p.rst with
  | true => simp [cycle_reset hrst] at h
  | false =>
    cases hf : c.inFlight with
    | some f =>
      cases hl : f.left with
      | zero => rw [cycle_responding hrst hf hl]
      | succ n => simp [cycle_busy hrst hf hl] at h
    | none =>
      cases hv : p.cmdValid with
      | false => simp [cycle_quiet hrst hf hv] at h
      | true =>
        cases hl : c.latencyNow p with
        | zero => rw [cycle_acceptResponding hrst hf hv hl]; exact hf
        | succ n => simp [cycle_accepting hrst hf hv hl] at h

/-- Settles O49: what is in flight decides whether the block is ready (`cmdReady_of_inFlight`, `cmdReady_of_idle`), and after
a response nothing is (`inFlight_of_rsp`). -/
theorem handshakeReadiness : Obligations.HandshakeReadiness := by
  refine fun p c => ⟨fun hf => ?_, cmdReady_of_idle, fun hr => ?_⟩
  · obtain ⟨f, hf⟩ := Option.ne_none_iff_exists'.mp hf
    exact cmdReady_of_inFlight hf
  · have hidle := inFlight_of_rsp hr
    exact ⟨hidle, fun q => cmdReady_of_idle hidle⟩

end Sys2Proof.Machine
end

section
/-! SUPPORT. From acceptance to the response (70_reset_and_hazards.md R133(c), R145). -/

namespace Sys2Proof.Machine

/-- Over the cycles of `ps` one response is given, in the last of them: the one of the command `word` on the engine `e`, which
is then as that command leaves it. -/
def Clocked.RespondsLast (c : Clocked) (ps : List Pins) (word : CmdWord) (e : Option Word32) : Prop :=
  (∃ waiting last, c.outputs ps = waiting ++ [last] ∧ (∀ o ∈ waiting, o.rsp = none) ∧
    last.rsp = (runCommand word e).2) ∧
  (c.after ps).engine = (runCommand word e).1

variable {c : Clocked} {p : Pins} {ps : List Pins} {word : CmdWord} {e : Option Word32}

/-- A cycle that responds is the last of one. -/
theorem respondsLast_singleton (hr : (c.cycle p).1.rsp = (runCommand word e).2)
    (he : (c.cycle p).2.engine = (runCommand word e).1) : c.RespondsLast [p] word e :=
  ⟨⟨[], (c.cycle p).1, rfl, by simp, hr⟩, he⟩

/-- A cycle without a response goes before. -/
theorem respondsLast_cons (hr : (c.cycle p).1.rsp = none) (h : (c.cycle p).2.RespondsLast ps word e) :
    c.RespondsLast (p :: ps) word e := by
  obtain ⟨⟨waiting, last, ho, hw, hl⟩, he⟩ := h
  refine ⟨⟨(c.cycle p).1 :: waiting, last, ?_, List.forall_mem_cons.mpr ⟨hr, hw⟩, hl⟩, he⟩
  rw [Clocked.outputs, ho, List.cons_append]

/-- A command in flight with `n` cycles left responds in the cycle after them. -/
theorem respondsLast_of_inFlight (n : Nat) :
    ∀ (ps : List Pins) (c : Clocked), c.inFlight = some ⟨word, n⟩ → (∀ q ∈ ps, q.rst = false) → ps.length = n + 1 →
      c.RespondsLast ps word c.engine := by
  induction n with
  | zero =>
    intro ps c hf hrst hlen
    obtain ⟨q, rfl⟩ := List.length_eq_one_iff.mp hlen
    have hcycle := cycle_responding (hrst q List.mem_cons_self) hf rfl
    exact respondsLast_singleton (by rw [hcycle]) (by rw [hcycle])
  | succ n ih =>
    intro ps c hf hrst hlen
    obtain ⟨q, qs, rfl⟩ := List.exists_cons_of_length_eq_add_one hlen
    obtain ⟨hq, hqs⟩ := List.forall_mem_cons.mp hrst
    have hcycle := cycle_busy hq hf rfl
    refine respondsLast_cons (by rw [hcycle]) ?_
    rw [hcycle]
    exact ih qs _ rfl hqs (Nat.succ.inj hlen)

/-- A command that is accepted responds its latency later. -/
theorem respondsLast_of_accept (hf : c.inFlight = none) (hp : p.rst = false) (hv : p.cmdValid = true)
    (hrst : ∀ q ∈ ps, q.rst = false) (hlen : ps.length = c.latencyNow p) :
    c.RespondsLast (p :: ps) p.word c.engine := by
  cases hlat : c.latencyNow p with
  | zero =>
    obtain rfl := List.length_eq_zero_iff.mp (hlen.trans hlat)
    have hcycle := cycle_acceptResponding hp hf hv hlat
    exact respondsLast_singleton (by rw [hcycle]) (by rw [hcycle])
  | succ n =>
    have hcycle := cycle_accepting hp hf hv hlat
    refine respondsLast_cons (by rw [hcycle]) ?_
    rw [hcycle]
    exact respondsLast_of_inFlight n ps _ rfl hrst (hlen.trans hlat)

/-- Settles O50: `respondsLast_of_accept`, with the response of the atomic meaning (`exec_next`, `runCommand_eq`). -/
theorem responseAfterLatency : Obligations.ResponseAfterLatency := by
  intro p ps c hf hp hv hrst hlen
  obtain ⟨t, r, ht, hr⟩ := exec_next (decode p.word) { engine := c.engine, rsp := none, inputs := [] }
  obtain ⟨⟨waiting, last, hout, hwait, hlast⟩, hengine⟩ := respondsLast_of_accept hf hp hv hrst hlen
  rw [runCommand_eq ht] at hlast hengine
  have hlast : last.rsp = some r := hlast.trans hr
  refine ⟨t, r, ht, hr, ?_, ?_, hengine⟩
  · rw [Clocked.responses, hout, List.filterMap_append, List.filterMap_eq_nil_iff.mpr hwait, List.nil_append,
      List.filterMap_cons_some hlast, List.filterMap_nil]
  · rw [hout, List.getLast?_concat, Option.bind_some, hlast]

end Sys2Proof.Machine
end

section
/-! SUPPORT. The clocked block refines the atomic one (70_reset_and_hazards.md R132, R133): a cycle in which a host action
takes effect is the atomic step of that action, and any other cycle changes nothing that the atomic machine has. -/

namespace Sys2Proof.Machine

variable {s : State} {rest : List HostAction}

/-- What the host has still to present is neither read nor changed by a command. -/
theorem exec_set_inputs {i : Instr} {t : State} (h : exec i s = .next t) (inputs : List HostAction) :
    exec i { s with inputs := inputs } = .next { t with inputs := inputs } := by
  cases i with
  | seed a b =>
    rcases exec_seed_cases h with ⟨hz, rfl⟩ | ⟨hz, rfl⟩
    · exact exec_seed_of_zero b _ hz
    · exact exec_seed_of_ne b _ hz
  | next a b =>
    rcases exec_next_cases h with ⟨he, rfl⟩ | ⟨x, he, rfl⟩
    · exact exec_next_of_none a b he
    · exact exec_next_of_some a b he
  | rand a b =>
    rcases exec_rand_cases h with ⟨he, rfl⟩ | ⟨he, hr, rfl⟩ | ⟨x, he, hr, rfl⟩
    · exact exec_rand_of_none a b he
    · obtain ⟨x, he⟩ := Option.ne_none_iff_exists'.mp he
      exact exec_rand_of_inverted he hr
    · exact exec_rand_of_some he hr
  | reserved3 a b =>
    obtain rfl := exec_reserved3_cases h
    rfl

/-- The atomic step of a command is what the clocked layer does with it. -/
theorem step_eq_runCommand {w : CmdWord} (hi : s.inputs = .cmd w :: rest) :
    step s = .next { engine := (runCommand w s.engine).1, rsp := (runCommand w s.engine).2, inputs := rest } := by
  obtain ⟨t, -, ht, -⟩ := exec_next (decode w) { engine := s.engine, rsp := none, inputs := [] }
  rw [runCommand_eq ht, step_cmd hi]
  exact (exec_set_rsp (decode w) { s with inputs := rest } none).symm.trans (exec_set_inputs ht rest)

/-- All that a cycle can do: no host action takes effect in it, and it gives no response and keeps the engine; or one does, and
the cycle is the atomic step of that action, from any atomic state that holds the engine. -/
theorem cycle_cases (p : Pins) (c : Clocked) :
    (c.event p = none ∧ (c.cycle p).1.rsp = none ∧ (c.cycle p).2.engine = c.engine) ∨
    (∃ action, c.event p = some action ∧ ∀ (s : State) (rest : List HostAction), s.engine = c.engine →
      s.inputs = action :: rest →
      step s = .next { engine := (c.cycle p).2.engine, rsp := (c.cycle p).1.rsp, inputs := rest }) := by
  simp only [Clocked.event, Clocked.cycle, Clocked.cycleAt]
  cases cycleKind (c.latencyNow p) p c with
  | resetting => exact .inr ⟨.reset, rfl, fun s rest _ hi => step_reset hi⟩
  | busy f left => exact .inl ⟨rfl, rfl, rfl⟩
  | responding w => exact .inr ⟨.cmd w, rfl, fun s rest he hi => he ▸ step_eq_runCommand hi⟩
  | acceptResponding w => exact .inr ⟨.cmd w, rfl, fun s rest he hi => he ▸ step_eq_runCommand hi⟩
  | accepting f => exact .inl ⟨rfl, rfl, rfl⟩
  | quiet => exact .inl ⟨rfl, rfl, rfl⟩

theorem responses_cons (p : Pins) (ps : List Pins) (c : Clocked) :
    c.responses (p :: ps) = (c.cycle p).1.rsp.toList ++ (c.cycle p).2.responses ps := by
  rw [Clocked.responses, Clocked.outputs, List.filterMap_cons]
  cases (c.cycle p).1.rsp <;> rfl

/-- The refinement from any atomic state that holds the engine of the clocked block and is presented its events: the response
port is free, since a step before may have written it. -/
theorem responses_eq_observe_events (ps : List Pins) :
    ∀ (c : Clocked) (s : State), s.engine = c.engine → s.inputs = c.events ps →
      c.responses ps = observe (c.events ps).length s ∧
      ∃ t, Host.Core.run core (c.events ps).length s = .next t ∧ t.engine = (c.after ps).engine := by
  induction ps with
  | nil => exact fun c s he _ => ⟨rfl, s, run_zero s, he⟩
  | cons p ps ih =>
    intro c s he hi
    rw [responses_cons]
    simp only [Clocked.events, Clocked.after] at hi ⊢
    rcases cycle_cases p c with ⟨hev, hr, hkept⟩ | ⟨action, hev, hatomic⟩
    · rw [hev] at hi ⊢
      rw [hr]
      exact ih _ s (he.trans hkept.symm) hi
    · rw [hev] at hi ⊢
      have hstep := hatomic s _ he hi
      obtain ⟨hobs, hrun⟩ := ih (c.cycle p).2 ⟨_, (c.cycle p).1.rsp, _⟩ rfl rfl
      rw [Option.toList_some, List.singleton_append, List.length_cons, observe_succ hstep, run_succ hstep]
      exact ⟨congrArg _ hobs, hrun⟩

/-- Settles O52: `responses_eq_observe_events`, by induction on the pins over `cycle_cases`, from the state with an empty
response port. -/
theorem clockedBlockRefinesAtomicBlock : Obligations.ClockedBlockRefinesAtomicBlock :=
  fun ps c => responses_eq_observe_events ps c _ rfl rfl

end Sys2Proof.Machine
end

section
/-! SUPPORT. The register along a run without a successful SEED (42_next.md R83; 70_reset_and_hazards.md R134, R137). -/

namespace Sys2Proof.Machine

variable {i : Instr} {s t : State} {r : Response} {x : Word32}

/-- On an engine, a command that constructs none costs one value of the stream if it draws and none otherwise. -/
theorem exec_engine_of_not_constructs (h : exec i s = .next t) (hs : s.engine = some x) (hc : i.constructs = false) :
    t.engine = some (lfsrStep^[i.draws.toNat] x) := by
  rcases exec_engine_cases h with ⟨hc', -⟩ | ⟨hd, y, hy, ht⟩ | ⟨-, hd, ht⟩
  · rw [hc] at hc'
    cases hc'
  · obtain rfl := Option.some.inj (hs.symm.trans hy)
    simp [hd, ht]
  · have hd : i.draws = false := by
      cases hcase : i.draws with
      | false => rfl
      | true => simp [hd hcase] at hs
    simp [hd, ht, hs]

/-- Settles O48, by induction on the words, for every state: the first one moves the register by 0 or 1
(`exec_engine_of_not_constructs`), which is what it counts for. -/
theorem streamPositionCountsSuccessfulSamples : Obligations.StreamPositionCountsSuccessfulSamples := by
  intro ws rest
  induction ws with
  | nil => exact fun s x hs hi _ => ⟨s, run_zero s, hi, hs⟩
  | cons w ws ih =>
    intro s x hs hi hc
    obtain ⟨hw, hws⟩ := List.forall_mem_cons.mp hc
    obtain ⟨u, -, hu, -⟩ := exec_next (decode w) { s with inputs := ws.map .cmd ++ rest }
    obtain ⟨t, ht, hti, hte⟩ := ih u _ (exec_engine_of_not_constructs hu hs hw) (exec_inputs hu) hws
    refine ⟨t, ?_, hti, ?_⟩
    · rw [List.length_cons, run_succ ((step_cmd hi).trans hu), ht]
    · rw [hte, ← Function.iterate_add_apply, List.countP_cons]
      cases (decode w).draws <;> rfl

/-- No engine exists, and no command still to be presented constructs one. -/
def State.StaysUnseeded (s : State) : Prop :=
  s.engine = none ∧ ∀ w, .cmd w ∈ s.inputs → (decode w).constructs = false

/-- Without an engine only a SEED that succeeds can answer OK. -/
theorem exec_status_ne_ok (h : exec i s = .next t) (hr : t.rsp = some r) (hs : s.engine = none)
    (hc : i.constructs = false) : r.status ≠ .ok := by
  rw [exec_status h hr, hs]
  cases i with
  | seed a b =>
    have hz : a.extractLsb' 0 32 = 0#32 := zeroSeed_eq_true.mp (by simpa using hc)
    simp [statusOf_seed, hz]
  | next a b => simp [statusOf_next]
  | rand a b => simp [statusOf_rand]
  | reserved3 a b => simp [statusOf_reserved3]

theorem step_keeps_staysUnseeded (hs : s.StaysUnseeded) (h : step s = .next t) : t.StaysUnseeded := by
  obtain ⟨hnone, hc⟩ := hs
  refine ⟨?_, fun w hw => hc w (List.mem_of_mem_tail (step_inputs h ▸ hw))⟩
  rcases step_engine_cases h with ⟨_, -, ht⟩ | ⟨w, _, hi, hw, -⟩ | ⟨_, _, x, -, -, hx, -⟩ | ht
  · exact ht
  · simp [hc w (by simp [hi])] at hw
  · simp [hnone] at hx
  · exact ht.trans hnone

theorem step_staysUnseeded_rsp (hs : s.StaysUnseeded) (h : step s = .next t) : ∀ r ∈ t.rsp, r.status ≠ .ok := by
  obtain ⟨hnone, hc⟩ := hs
  intro r hr
  rcases step_cases h with ⟨-, rfl⟩ | ⟨_, -, rfl⟩ | ⟨_, -, rfl⟩ | ⟨w, rest, hi, hx⟩
  · cases hr
  · cases hr
  · cases hr
  · exact exec_status_ne_ok hx hr hnone (hc w (by simp [hi]))

/-- Settles O44, by induction on the number of steps: each keeps the hypotheses (`step_keeps_staysUnseeded`) and answers OK to
nothing (`step_staysUnseeded_rsp`). -/
theorem unseededUntilSeedSucceeds : Obligations.UnseededUntilSeedSucceeds := by
  intro n
  induction n with
  | zero => exact fun s hs _ => ⟨by simp [observe], s, run_zero s, hs⟩
  | succ n ih =>
    intro s hnone hc
    have hs : s.StaysUnseeded := ⟨hnone, hc⟩
    obtain ⟨t, ht⟩ := everyStepGoesOn s
    obtain ⟨htnone, htc⟩ := step_keeps_staysUnseeded hs ht
    obtain ⟨hobs, hrun⟩ := ih t htnone htc
    rw [observe_succ ht, run_succ ht]
    refine ⟨List.forall_mem_append.mpr ⟨fun r hr => ?_, hobs⟩, hrun⟩
    exact step_staysUnseeded_rsp hs ht r (Option.mem_toList.mp hr)

end Sys2Proof.Machine
end

section
/-! SUPPORT. The stream a host sees after SEED (42_next.md R80; 70_reset_and_hazards.md R136). -/

namespace Sys2Proof.Machine

/-- The first `k` responses to NEXT of an engine that holds `x`. -/
def streamResponses (x : Word32) (k : Nat) : List Response :=
  (List.range k).map fun j => ⟨.ok, (lfsrStep^[j + 1] x).setWidth 64⟩

theorem streamResponses_succ (x : Word32) (k : Nat) :
    streamResponses x (k + 1) = ⟨.ok, (lfsrStep x).setWidth 64⟩ :: streamResponses (lfsrStep x) k := by
  rw [streamResponses, List.range_succ_eq_map, List.map_cons, List.map_map]
  rfl

/-- A step that performs a NEXT on an engine. -/
theorem step_next {s : State} {x : Word32} {w : CmdWord} {rest : List HostAction} (hs : s.engine = some x)
    (hi : s.inputs = .cmd w :: rest) (hop : cmdOp w = 1#2) :
    step s = .next { engine := some (lfsrStep x), rsp := some ⟨.ok, zext64 (lfsrStep x)⟩, inputs := rest } := by
  rw [step_cmd hi, decode_op1 hop]
  exact exec_next_of_some (cmdA w) (cmdB w) hs

/-- NEXT after NEXT gives the stream of the register, from its next value on. -/
theorem observe_nexts (rest : List HostAction) (ws : List CmdWord) :
    ∀ (s : State) (x : Word32), s.engine = some x → s.inputs = ws.map .cmd ++ rest → (∀ w ∈ ws, cmdOp w = 1#2) →
      observe ws.length s = streamResponses x ws.length := by
  induction ws with
  | nil => exact fun _ _ _ _ _ => rfl
  | cons w ws ih =>
    intro s x hs hi hop
    obtain ⟨hw, hws⟩ := List.forall_mem_cons.mp hop
    rw [List.length_cons, observe_succ (step_next hs hi hw), streamResponses_succ, ih _ (lfsrStep x) rfl rfl hws]
    rfl

/-- Settles O47: the SEED loads its masked operand (`step_seed`), and the NEXTs give the stream from there
(`observe_nexts`). -/
theorem seedThenNextGivesTheStream : Obligations.SeedThenNextGivesTheStream := by
  intro k a b ws rest s ha hlen hop hi
  subst hlen
  rw [encode_seed] at hi
  have hstep := step_seed hi (cmdOp_cmdWord _ _ _) (by rwa [cmdA_cmdWord])
  rw [cmdA_cmdWord] at hstep
  rw [observe_succ hstep, observe_nexts rest ws _ _ rfl rfl hop]
  rfl

end Sys2Proof.Machine
end

section
/-! SUPPORT. The period of every seed (70_reset_and_hazards.md R140). -/

namespace Sys2Proof.Machine

open Function (minimalPeriod)

variable {x : Word32}

/-- Every value on a cycle has the period of the cycle's member. -/
theorem minimalPeriod_iterate_cycleMember (i : Fin 4) (j : Nat) :
    minimalPeriod lfsrStep (lfsrStep^[j] (cycleMember i)) = cycleLength i :=
  (Function.minimalPeriod_apply_iterate (mem_periodicPts_lfsrStep _) j).trans (minimalPeriod_cycleMember i)

theorem isPeriod_iterate_cycleMember (i : Fin 4) (j : Nat) :
    IsPeriod (lfsrStep^[j] (cycleMember i)) (cycleLength i) :=
  minimalPeriod_iterate_cycleMember i j ▸ isPeriod_minimalPeriod _

/-- No value is on two of the cycles, since their lengths differ. -/
theorem cycleMember_unique {i i' : Fin 4} {j j' : Nat}
    (h : lfsrStep^[j] (cycleMember i) = lfsrStep^[j'] (cycleMember i')) : i = i' := by
  apply cycleLength_injective
  rw [← minimalPeriod_iterate_cycleMember i j, h, minimalPeriod_iterate_cycleMember]

/-- The seven values of the short cycle, as 70_reset_and_hazards.md R140 lists them. -/
def shortCycle : List Word32 :=
  [0x972E5CB9#32, 0xCB972E5C#32, 0xE5CB972E#32, 0x72E5CB97#32, 0xB972E5CB#32, 0x5CB972E5#32, 0x2E5CB972#32]

theorem shortCycle_eq : shortCycle = (List.range 7).map fun j => lfsrStep^[j] (cycleMember 1) := by decide

theorem mem_shortCycle_iff : x ∈ shortCycle ↔ ∃ j < 7, x = lfsrStep^[j] (cycleMember 1) := by
  simp only [shortCycle_eq, List.mem_map, List.mem_range, eq_comm]

/-- Settles O16: the cycle that holds the seed (`exists_cycleMember`) gives its period, and no seed is on two of them
(`cycleMember_unique`); SEED loads every non-zero seed (`seedConstructsOrRejects`). -/
theorem periodOfEverySeed : Obligations.PeriodOfEverySeed := by
  intro x hx
  refine ⟨?_, fun a b s ha => ?_⟩
  · obtain ⟨i, j, hj, rfl⟩ := exists_cycleMember x
    have hper := isPeriod_iterate_cycleMember i j
    match i with
    | 0 => exact absurd (Function.iterate_fixed lfsrStep_zero j) hx
    | 1 => exact .inl ⟨mem_shortCycle_iff.mpr ⟨j, hj, rfl⟩, hper⟩
    | 2 => exact .inr (.inl ⟨⟨j, rfl⟩, hper⟩)
    | 3 =>
      refine .inr (.inr ⟨fun hshort => ?_, fun ⟨j', hmiddle⟩ => ?_, hper⟩)
      · obtain ⟨j', -, heq⟩ := mem_shortCycle_iff.mp hshort
        exact absurd (cycleMember_unique heq) (by decide)
      · exact absurd (cycleMember_unique (i' := 2) hmiddle) (by decide)
  · obtain ⟨-, hok, -⟩ := seedConstructsOrRejects a b s
    rw [hok (ha ▸ hx), ha]

end Sys2Proof.Machine
end
